-- ==== Sys2Proof/Word.lean ====
section
/-! DEFINITION. The words of the c8 CORE and the numbers that name its registers and keys
(spec/00_scope.md R7, R9; spec/10_state.md R20, R37). -/

namespace Sys2Proof

/-- A u8: a register, a memory cell, an immediate byte (R9). -/
abbrev Byte := BitVec 8

/-- A u16: `pc`, `i`, a return address, an instruction word (R9). -/
abbrev Word := BitVec 16

/-- A general register's number, V0 to VF (R20). -/
abbrev RegId := Fin 16

/-- A logical key's number (R37). -/
abbrev KeyId := Fin 16

/-- VF, the register that is also the flag (R21). -/
abbrev vf : RegId := 15

end Sys2Proof
end

