-- ==== Sys2Proof/Syntax.lean ====
section
/-! DEFINITION. The 34 instructions of the base set (spec/30_encoding.md R96), one constructor per row
of spec/opcode_table.json, in the table's order. Operands have exactly the width of their encoding's
field (R91), so no ill-formed instruction can be written down. -/

namespace Sys2Proof

/-- `x`, `y` are the register fields X and Y, `nn` the immediate byte, `nnn` the 12-bit address and
`n` the sprite height of R91. -/
inductive Instr where
  | cls
  | ret
  | jp (nnn : BitVec 12)
  | call (nnn : BitVec 12)
  | seImm (x : RegId) (nn : Byte)
  | sneImm (x : RegId) (nn : Byte)
  | seReg (x y : RegId)
  | ldImm (x : RegId) (nn : Byte)
  | addImm (x : RegId) (nn : Byte)
  | ldReg (x y : RegId)
  | orReg (x y : RegId)
  | andReg (x y : RegId)
  | xorReg (x y : RegId)
  | addReg (x y : RegId)
  | subReg (x y : RegId)
  | shr (x y : RegId)
  | subn (x y : RegId)
  | shl (x y : RegId)
  | sneReg (x y : RegId)
  | ldI (nnn : BitVec 12)
  | jpV0 (nnn : BitVec 12)
  | rnd (x : RegId) (nn : Byte)
  | drw (x y : RegId) (n : Fin 16)
  | skp (x : RegId)
  | sknp (x : RegId)
  | ldVxDt (x : RegId)
  | ldVxK (x : RegId)
  | ldDtVx (x : RegId)
  | ldStVx (x : RegId)
  | addI (x : RegId)
  | ldF (x : RegId)
  | ldB (x : RegId)
  | storeRegs (x : RegId)
  | loadRegs (x : RegId)
  deriving DecidableEq, Repr

end Sys2Proof
end

