-- ==== Sys2Proof/Decode.lean ====
section
/-! DEFINITION. The decoder and the encoder (spec/30_encoding.md R90 to R98). Decoding is a pure function
of the 16-bit word (R93). All bit patterns are those of R96, which the spec itself marks as general
knowledge (log 6). -/

namespace Sys2Proof

/-! ## The fields of a word (R91) -/

/-- OP, bits[15:12]. -/
def opField (w : Word) : BitVec 4 := w.extractLsb' 12 4

/-- X, bits[11:8]. -/
def xField (w : Word) : RegId := (w.extractLsb' 8 4).toFin

/-- Y, bits[7:4]. -/
def yField (w : Word) : RegId := (w.extractLsb' 4 4).toFin

/-- N, bits[3:0]. -/
def nField (w : Word) : Fin 16 := (w.extractLsb' 0 4).toFin

/-- NN, bits[7:0]. -/
def nnField (w : Word) : Byte := w.extractLsb' 0 8

/-- NNN, bits[11:0]. -/
def nnnField (w : Word) : BitVec 12 := w.extractLsb' 0 12

/-! ## Decoding -/

/-- Why no row of R96 matches: one name for each line of the table of R98, and one for a byte list too
short to hold a word. -/
inductive Unrecognised where
  /-- 0x0000 to 0x0FFF except 00E0 and 00EE -/
  | machineCall
  /-- 5XYn with n ≠ 0 -/
  | skipEqual
  /-- 8XYn with n in 8..D, F -/
  | alu
  /-- 9XYn with n ≠ 0 -/
  | skipNotEqual
  /-- EXnn with nn neither 9E nor A1 -/
  | key
  /-- FXnn with nn not among the nine of R96 -/
  | misc
  /-- fewer than two bytes -/
  | truncated
  deriving DecidableEq, Repr

/-- The nine 8XYn rows (R96). -/
def decodeAlu (x y : RegId) (n : Fin 16) : Except Unrecognised Instr :=
  match n.val with
  | 0x0 => .ok (.ldReg x y)
  | 0x1 => .ok (.orReg x y)
  | 0x2 => .ok (.andReg x y)
  | 0x3 => .ok (.xorReg x y)
  | 0x4 => .ok (.addReg x y)
  | 0x5 => .ok (.subReg x y)
  | 0x6 => .ok (.shr x y)
  | 0x7 => .ok (.subn x y)
  | 0xE => .ok (.shl x y)
  | _ => .error .alu

/-- The two EXnn rows (R96). -/
def decodeKey (x : RegId) (nn : Byte) : Except Unrecognised Instr :=
  if nn = 0x9E then .ok (.skp x)
  else if nn = 0xA1 then .ok (.sknp x)
  else .error .key

/-- The nine FXnn rows (R96). -/
def decodeMisc (x : RegId) (nn : Byte) : Except Unrecognised Instr :=
  if nn = 0x07 then .ok (.ldVxDt x)
  else if nn = 0x0A then .ok (.ldVxK x)
  else if nn = 0x15 then .ok (.ldDtVx x)
  else if nn = 0x18 then .ok (.ldStVx x)
  else if nn = 0x1E then .ok (.addI x)
  else if nn = 0x29 then .ok (.ldF x)
  else if nn = 0x33 then .ok (.ldB x)
  else if nn = 0x55 then .ok (.storeRegs x)
  else if nn = 0x65 then .ok (.loadRegs x)
  else .error .misc

/-- The decoder: OP first, then N or NN (R93, R96); strict, every other word is unrecognised (R98). -/
def decode (w : Word) : Except Unrecognised Instr :=
  match (opField w).toNat with
  | 0x0 => if w = 0x00E0 then .ok .cls else if w = 0x00EE then .ok .ret else .error .machineCall
  | 0x1 => .ok (.jp (nnnField w))
  | 0x2 => .ok (.call (nnnField w))
  | 0x3 => .ok (.seImm (xField w) (nnField w))
  | 0x4 => .ok (.sneImm (xField w) (nnField w))
  | 0x5 => if nField w = 0 then .ok (.seReg (xField w) (yField w)) else .error .skipEqual
  | 0x6 => .ok (.ldImm (xField w) (nnField w))
  | 0x7 => .ok (.addImm (xField w) (nnField w))
  | 0x8 => decodeAlu (xField w) (yField w) (nField w)
  | 0x9 => if nField w = 0 then .ok (.sneReg (xField w) (yField w)) else .error .skipNotEqual
  | 0xA => .ok (.ldI (nnnField w))
  | 0xB => .ok (.jpV0 (nnnField w))
  | 0xC => .ok (.rnd (xField w) (nnField w))
  | 0xD => .ok (.drw (xField w) (yField w) (nField w))
  | 0xE => decodeKey (xField w) (nnField w)
  | _ => decodeMisc (xField w) (nnField w)

/-- A word from its two bytes in memory order: big-endian (20_memory.md R62, R64). -/
def wordOfBytes (high low : Byte) : Word := high ++ low

/-- The decoder on bytes in memory order: the instruction and the bytes after it (R90). -/
def decodeBytes : List Byte → Except Unrecognised (Instr × List Byte)
  | high :: low :: rest => (decode (wordOfBytes high low)).map (fun i => (i, rest))
  | _ => .error .truncated

/-! ## Encoding -/

/-- Formats A: `hNNN` (R92). -/
def formatA (op : BitVec 4) (nnn : BitVec 12) : Word := op ++ nnn

/-- Formats I and X: `hXNN`, `hXhh` (R92). -/
def formatI (op : BitVec 4) (x : RegId) (nn : Byte) : Word := op ++ BitVec.ofFin (w := 4) x ++ nn

/-- Formats R and D: `hXYh`, `hXYN` (R92). -/
def formatR (op : BitVec 4) (x y n : Fin 16) : Word :=
  op ++ BitVec.ofFin (w := 4) x ++ BitVec.ofFin (w := 4) y ++ BitVec.ofFin (w := 4) n

/-- The word of an instruction (R96). -/
def encode : Instr → Word
  | .cls => 0x00E0
  | .ret => 0x00EE
  | .jp nnn => formatA 0x1 nnn
  | .call nnn => formatA 0x2 nnn
  | .seImm x nn => formatI 0x3 x nn
  | .sneImm x nn => formatI 0x4 x nn
  | .seReg x y => formatR 0x5 x y 0x0
  | .ldImm x nn => formatI 0x6 x nn
  | .addImm x nn => formatI 0x7 x nn
  | .ldReg x y => formatR 0x8 x y 0x0
  | .orReg x y => formatR 0x8 x y 0x1
  | .andReg x y => formatR 0x8 x y 0x2
  | .xorReg x y => formatR 0x8 x y 0x3
  | .addReg x y => formatR 0x8 x y 0x4
  | .subReg x y => formatR 0x8 x y 0x5
  | .shr x y => formatR 0x8 x y 0x6
  | .subn x y => formatR 0x8 x y 0x7
  | .shl x y => formatR 0x8 x y 0xE
  | .sneReg x y => formatR 0x9 x y 0x0
  | .ldI nnn => formatA 0xA nnn
  | .jpV0 nnn => formatA 0xB nnn
  | .rnd x nn => formatI 0xC x nn
  | .drw x y n => formatR 0xD x y n
  | .skp x => formatI 0xE x 0x9E
  | .sknp x => formatI 0xE x 0xA1
  | .ldVxDt x => formatI 0xF x 0x07
  | .ldVxK x => formatI 0xF x 0x0A
  | .ldDtVx x => formatI 0xF x 0x15
  | .ldStVx x => formatI 0xF x 0x18
  | .addI x => formatI 0xF x 0x1E
  | .ldF x => formatI 0xF x 0x29
  | .ldB x => formatI 0xF x 0x33
  | .storeRegs x => formatI 0xF x 0x55
  | .loadRegs x => formatI 0xF x 0x65

/-- A word's two bytes in memory order (20_memory.md R62). -/
def bytesOfWord (w : Word) : List Byte := [w.extractLsb' 8 8, w.extractLsb' 0 8]

/-! ## The opcode table (R96) as data -/

/-- One row: the table's mnemonic, mask and match. -/
structure Row where
  mnemonic : String
  mask : Word
  value : Word
  deriving DecidableEq, Repr

/-- "A word w selects the row with (w AND mask) = match" (R96). -/
abbrev Row.selects (r : Row) (w : Word) : Prop := w &&& r.mask = r.value

/-- The row of an instruction. -/
def rowOf : Instr → Row
  | .cls => ⟨"CLS", 0xFFFF, 0x00E0⟩
  | .ret => ⟨"RET", 0xFFFF, 0x00EE⟩
  | .jp _ => ⟨"JP_addr", 0xF000, 0x1000⟩
  | .call _ => ⟨"CALL_addr", 0xF000, 0x2000⟩
  | .seImm _ _ => ⟨"SE_Vx__byte", 0xF000, 0x3000⟩
  | .sneImm _ _ => ⟨"SNE_Vx__byte", 0xF000, 0x4000⟩
  | .seReg _ _ => ⟨"SE_Vx__Vy", 0xF00F, 0x5000⟩
  | .ldImm _ _ => ⟨"LD_Vx__byte", 0xF000, 0x6000⟩
  | .addImm _ _ => ⟨"ADD_Vx__byte", 0xF000, 0x7000⟩
  | .ldReg _ _ => ⟨"LD_Vx__Vy", 0xF00F, 0x8000⟩
  | .orReg _ _ => ⟨"OR_Vx__Vy", 0xF00F, 0x8001⟩
  | .andReg _ _ => ⟨"AND_Vx__Vy", 0xF00F, 0x8002⟩
  | .xorReg _ _ => ⟨"XOR_Vx__Vy", 0xF00F, 0x8003⟩
  | .addReg _ _ => ⟨"ADD_Vx__Vy", 0xF00F, 0x8004⟩
  | .subReg _ _ => ⟨"SUB_Vx__Vy", 0xF00F, 0x8005⟩
  | .shr _ _ => ⟨"SHR_Vx__Vy", 0xF00F, 0x8006⟩
  | .subn _ _ => ⟨"SUBN_Vx__Vy", 0xF00F, 0x8007⟩
  | .shl _ _ => ⟨"SHL_Vx__Vy", 0xF00F, 0x800E⟩
  | .sneReg _ _ => ⟨"SNE_Vx__Vy", 0xF00F, 0x9000⟩
  | .ldI _ => ⟨"LD_I__addr", 0xF000, 0xA000⟩
  | .jpV0 _ => ⟨"JP_V0__addr", 0xF000, 0xB000⟩
  | .rnd _ _ => ⟨"RND_Vx__byte", 0xF000, 0xC000⟩
  | .drw _ _ _ => ⟨"DRW_Vx__Vy__nibble", 0xF000, 0xD000⟩
  | .skp _ => ⟨"SKP_Vx", 0xF0FF, 0xE09E⟩
  | .sknp _ => ⟨"SKNP_Vx", 0xF0FF, 0xE0A1⟩
  | .ldVxDt _ => ⟨"LD_Vx__DT", 0xF0FF, 0xF007⟩
  | .ldVxK _ => ⟨"LD_Vx__K", 0xF0FF, 0xF00A⟩
  | .ldDtVx _ => ⟨"LD_DT__Vx", 0xF0FF, 0xF015⟩
  | .ldStVx _ => ⟨"LD_ST__Vx", 0xF0FF, 0xF018⟩
  | .addI _ => ⟨"ADD_I__Vx", 0xF0FF, 0xF01E⟩
  | .ldF _ => ⟨"LD_F__Vx", 0xF0FF, 0xF029⟩
  | .ldB _ => ⟨"LD_B__Vx", 0xF0FF, 0xF033⟩
  | .storeRegs _ => ⟨"LD__I___Vx", 0xF0FF, 0xF055⟩
  | .loadRegs _ => ⟨"LD_Vx___I", 0xF0FF, 0xF065⟩

/-- One instruction of each constructor, in the table's order. -/
def oneOfEach : List Instr :=
  [.cls, .ret, .jp 0, .call 0, .seImm 0 0, .sneImm 0 0, .seReg 0 0, .ldImm 0 0, .addImm 0 0,
    .ldReg 0 0, .orReg 0 0, .andReg 0 0, .xorReg 0 0, .addReg 0 0, .subReg 0 0, .shr 0 0,
    .subn 0 0, .shl 0 0, .sneReg 0 0] ++
  [.ldI 0, .jpV0 0, .rnd 0 0, .drw 0 0 0, .skp 0, .sknp 0, .ldVxDt 0, .ldVxK 0, .ldDtVx 0,
    .ldStVx 0, .addI 0, .ldF 0, .ldB 0, .storeRegs 0, .loadRegs 0]

/-- The 34 rows of R96. -/
def opcodeTable : List Row := oneOfEach.map rowOf

/-! ## The host's view of a table word -/

/-- The instruction whose bits are `w` (its `nbits` low bits; those above are 0), laid out big-endian
as the machine stores it and given to `decodeBytes`. -/
def decodeTableWord (nbits w : Nat) : Option Instr :=
  match decodeBytes (bytesOfWord (BitVec.ofNat 16 (w % 2 ^ nbits))) with
  | .ok (i, _) => some i
  | .error _ => none

end Sys2Proof
end

