-- ==== Sys2Proof/Config.lean ====
section
/-! DEFINITION. The configuration (spec/00_scope.md R5, R6; spec/10_state.md R33, R34): what is fixed for
one machine and never changes while it exists. The default values are in Machine/Defaults.lean. -/

namespace Sys2Proof

/-- The quirk bitset Q: seven independent booleans (10_state.md R34). -/
structure Quirks where
  shift : Bool
  lsIncX : Bool
  lsNoInc : Bool
  wrap : Bool
  bxnn : Bool
  vblank : Bool
  vfReset : Bool
  deriving DecidableEq, Repr

/-- The parameter PRNG_NEXT (44_timers_keys_random.md R210, R212; log 3): the default recurrence of R212,
or some other linear function of the four state bytes that the spec does not give (log 16). -/
inductive PrngRule where
  | standard
  | other (k : Nat)
  deriving DecidableEq, Repr

/-- The linear functions PRNG_NEXT may be other than R212's, each by its value at every single bit of the
state. They are uninterpreted, so that nothing can be proved about a value of one (R210, D17; log 3). -/
opaque Config.otherPrngColumn : Nat → Nat → BitVec 32

/-- The configuration record of R5 with the parameters R6 adds. SEED_INIT is an argument of creation
(R51), and EXT_HANDLERS is empty (R4, R95). -/
structure Config where
  /-- MEM_SIZE -/
  memSize : Nat
  /-- W -/
  width : Nat
  /-- H -/
  height : Nat
  /-- CPF -/
  cyclesPerFrame : Nat
  /-- Q -/
  quirks : Quirks
  /-- FONT_TABLE -/
  font : Vector Byte 80
  /-- PRNG_NEXT -/
  prngRule : PrngRule
  /-- VBLANK_RESET -/
  vblankReset : Nat
  deriving DecidableEq, Repr

end Sys2Proof
end

