-- ==== Sys2Proof/Machine/Defaults.lean ====
section
/-! DEFINITION. The default values of the configuration (spec/00_scope.md R5, R6) and the fixed addresses
(R7). -/

namespace Sys2Proof.Machine

/-- 0x200, where a program is loaded and `pc` starts (10_state.md R23, R50; 20_memory.md R67). -/
def programBase : Word := 0x200

/-- 0x050, where the font stands (20_memory.md R66). -/
def fontBase : Nat := 0x050

/-- The conventional font, sixteen glyphs of five rows (20_memory.md R66). -/
def defaultGlyphs : List (List Byte) :=
  [[0xF0, 0x90, 0x90, 0x90, 0xF0], [0x20, 0x60, 0x20, 0x20, 0x70],
    [0xF0, 0x10, 0xF0, 0x80, 0xF0], [0xF0, 0x10, 0xF0, 0x10, 0xF0],
    [0x90, 0x90, 0xF0, 0x10, 0x10], [0xF0, 0x80, 0xF0, 0x10, 0xF0],
    [0xF0, 0x80, 0xF0, 0x90, 0xF0], [0xF0, 0x10, 0x20, 0x40, 0x40]] ++
  [[0xF0, 0x90, 0xF0, 0x90, 0xF0], [0xF0, 0x90, 0xF0, 0x10, 0xF0],
    [0xF0, 0x90, 0xF0, 0x90, 0x90], [0xE0, 0x90, 0xE0, 0x90, 0xE0],
    [0xF0, 0x80, 0x80, 0x80, 0xF0], [0xE0, 0x90, 0x90, 0x90, 0xE0],
    [0xF0, 0x80, 0xF0, 0x80, 0xF0], [0xF0, 0x80, 0xF0, 0x80, 0x80]]

/-- FONT_TABLE's default (R6, R66). -/
def defaultFont : Vector Byte 80 := ⟨defaultGlyphs.flatten.toArray, by decide⟩

/-- All seven quirks off: the column "Default (off)" of the source's quirk table (R5; log 2). -/
def quirksOff : Quirks := ⟨false, false, false, false, false, false, false⟩

/-- The source's defaults for MEM_SIZE, W, H, the spec's for FONT_TABLE, PRNG_NEXT, VBLANK_RESET (R5, R6),
and the model's choice for Q and CPF, which have none (log 2). -/
def defaultConfig : Config :=
  { memSize := 4096, width := 64, height := 32, cyclesPerFrame := 1, quirks := quirksOff,
    font := defaultFont, prngRule := .standard, vblankReset := 0 }

/-- The PRNG state of `State.reset`: the seed of the spec's own examples (R211, R212; log 4). -/
def defaultSeed : BitVec 32 := 0x00000001

end Sys2Proof.Machine
end

