-- ==== Sys2Proof/Machine/State.lean ====
section
/-! DEFINITION. The machine's state (spec/10_state.md), the reasons a step can stop, and the state after
reset (R50). -/

namespace Sys2Proof.Machine

/-- Main memory: the cells that differ from their reset contents, addresses strictly rising
(Machine/Memory.lean gives the reading of an unlisted address). -/
abbrev Memory := List Host.Cell

/-- Everything 10_state.md gives the machine, in a state after the first reset, beside the configuration
it was created with. -/
structure State where
  /-- The configuration: a parameter that nothing changes (R5, R33; log 1). -/
  cfg : Config
  /-- `v[0..15]` (R20). -/
  v : Vector Byte 16
  /-- The index register (R35). -/
  i : Word
  /-- The program counter (R23). -/
  pc : Word
  /-- The stack pointer, the number of return addresses stacked (R28). -/
  sp : Byte
  /-- The return-address stack, a register array of its own (R36). -/
  stack : Vector Word 16
  /-- The delay timer (R29). -/
  dt : Byte
  /-- The sound timer (R29). -/
  st : Byte
  /-- The vblank budget, unbounded (R30). -/
  vblank : Nat
  /-- The PRNG state as one word: byte k is bits[8k+7:8k] (R31). -/
  prng : BitVec 32
  /-- The fractional-time accumulator, in milliseconds (R32). -/
  acc : Rat
  /-- The key state (R37). -/
  key : Vector Bool 16
  /-- Main memory (R38). -/
  mem : Memory
  /-- The display buffer, one byte per pixel, row-major (R39). -/
  disp : List Byte
  deriving DecidableEq, Repr

/-- Stops of the MODEL. The hardware has none: its fault is a next state (60_exceptions.md R224, see
`raiseFault`). Both are reached only from states outside `State.Inv`, which no transaction produces
(log 8); both are safe. -/
inductive Fault where
  /-- Raised by `step` when the two bytes to fetch do not exist, which needs MEM_SIZE < 2 (R222). Safe. -/
  | noSuchAddress
  /-- Raised by RET when `sp` is above 16, a value the spec rules out (R28). Safe. -/
  | noSuchStackEntry
  deriving DecidableEq, Repr

/-- Refusals: all but the first are of host transactions, where the spec itself refuses
(60_exceptions.md). -/
inductive Refusal where
  /-- An instruction with no meaning yet. No arm of `exec` answers it. -/
  | notModelled (mnemonic : String)
  /-- Any transaction but `reset` and `set_rng_seed` before the first reset (R51). Safe. -/
  | beforeFirstReset
  /-- `create` with a configuration outside the ranges of R5 (D23, U23). Safe. -/
  | configOutOfRange
  /-- `set_registers` with sp > 16 (R244). Safe. -/
  | spAboveSixteen
  /-- `set_display` with a size other than W*H or a byte other than 0 and 1 (R247). Safe. -/
  | badDisplay
  /-- `press_key` or `release_key` with a key above 15 (R250, R251). Safe. -/
  | noSuchKey
  /-- `update_timers` with a negative or non-finite delta (R236). Safe. -/
  | badDelta
  deriving DecidableEq, Repr

/-- What a meaning answers. -/
abbrev Result := Host.Outcome State Fault Refusal

/-- The state after `reset` (R50, 70_reset_and_hazards.md R260) of a machine with this configuration,
PRNG state, accumulator and keys, which reset leaves alone. Memory lists nothing: it reads as its reset
contents. -/
def State.afterReset (cfg : Config) (prng : BitVec 32) (acc : Rat) (key : Vector Bool 16) : State :=
  { cfg := cfg
    v := Vector.replicate 16 0
    i := 0
    pc := programBase
    sp := 0
    stack := Vector.replicate 16 0
    dt := 0
    st := 0
    vblank := cfg.vblankReset
    prng := prng
    acc := acc
    key := key
    mem := []
    disp := List.replicate (cfg.width * cfg.height) 0 }

/-- The machine right after the reset that follows creation (R50, R51) with the default configuration
(log 2) and the seed of log 4: no key down, nothing accumulated. -/
def State.reset : State :=
  State.afterReset defaultConfig defaultSeed 0 (Vector.replicate 16 false)

end Sys2Proof.Machine
end

