-- ==== Sys2Proof/WellFormed.lean ====
section
/-! DEFINITION. What is checked before a term is taken as data of this machine. An instruction needs no
check: each operand's type is its field's width (30_encoding.md R91). A configuration is checked against
the ranges of 00_scope.md R5; the host's records are checked by the predicates below (60_exceptions.md
R244, R247). -/

namespace Sys2Proof

/-- The ranges of R5: 0x202 <= MEM_SIZE <= 0x10000, W >= 1, H >= 1. -/
abbrev Config.wf (c : Config) : Prop :=
  0x202 ≤ c.memSize ∧ c.memSize ≤ 0x10000 ∧ 1 ≤ c.width ∧ 1 ≤ c.height

/-- A stack pointer the machine may hold: 0 to 16 (10_state.md R28, R244). -/
abbrev spLegal (sp : Byte) : Prop := sp.toNat ≤ 16

/-- A display buffer of a machine: exactly W*H bytes, each 0 or 1 (10_state.md R39, R247). -/
abbrev displayLegal (c : Config) (disp : List Byte) : Prop :=
  disp.length = c.width * c.height ∧ ∀ p ∈ disp, p = 0 ∨ p = 1

end Sys2Proof
end

