-- ==== Sys2Proof/Machine/Memory.lean ====
section
/-! DEFINITION. Main memory (spec/20_memory.md): a list of cells in one canonical form over the reset
contents. -/

namespace Sys2Proof.Machine

/-- What an unlisted address reads as: its contents after reset (R50, R67): the trap word 10 00 at 0x000
(R65), FONT_TABLE at 0x050 (R66), 0 everywhere else, 0x001 among it. -/
def resetByte (cfg : Config) (a : Nat) : Byte :=
  if a = 0 then 0x10
  else if h : fontBase ≤ a ∧ a < fontBase + 80 then cfg.font[a - fontBase]'(by omega)
  else 0

/-- The canonical form: addresses strictly rising, each below MEM_SIZE, no cell equal to what its
address reads as when unlisted. -/
abbrev Memory.wf (cfg : Config) (m : Memory) : Prop :=
  m.Pairwise (fun p q => p.1 < q.1) ∧ ∀ c ∈ m, c.1 < cfg.memSize ∧ c.2 ≠ resetByte cfg c.1

/-- The listed byte at `a`, if any. -/
def Memory.find (a : Nat) : Memory → Option Byte
  | [] => none
  | (k, b) :: rest => if k = a then some b else Memory.find a rest

/-- The byte at `a`. -/
def Memory.get (cfg : Config) (m : Memory) (a : Nat) : Byte :=
  (Memory.find a m).getD (resetByte cfg a)

/-- List `b` at `a`, keeping the order. -/
def Memory.insert (a : Nat) (b : Byte) : Memory → Memory
  | [] => [(a, b)]
  | (k, c) :: rest =>
    if a < k then (a, b) :: (k, c) :: rest
    else if a = k then (a, b) :: rest
    else (k, c) :: Memory.insert a b rest

/-- List nothing at `a`. -/
def Memory.erase (a : Nat) : Memory → Memory
  | [] => []
  | (k, c) :: rest => if k = a then Memory.erase a rest else (k, c) :: Memory.erase a rest

/-- The memory with the byte at `a` set to `b`, in canonical form. -/
def Memory.set (cfg : Config) (m : Memory) (a : Nat) (b : Byte) : Memory :=
  if b = resetByte cfg a then Memory.erase a m else Memory.insert a b m

/-- `MemRead(a, 1)` where it is defined, below MEM_SIZE (R60); nothing beyond (R63). -/
def State.readByte (s : State) (a : Nat) : Option Byte :=
  if a < s.cfg.memSize then some (Memory.get s.cfg s.mem a) else none

/-- Main memory as a whole (10_state.md R38). -/
def State.setMem (s : State) (m : Memory) : State := { s with mem := m }

/-- `MemWrite(a, 1, b)` below MEM_SIZE, with no protection (R61); skipped beyond (R63). -/
def State.writeByte (s : State) (a : Nat) (b : Byte) : State :=
  if a < s.cfg.memSize then s.setMem (Memory.set s.cfg s.mem a b) else s

/-- Consecutive bytes from `a` up, the first at `a` (R74). -/
def State.writeBytes (s : State) (a : Nat) : List Byte → State
  | [] => s
  | b :: rest => (s.writeByte a b).writeBytes (a + 1) rest

end Sys2Proof.Machine
end

