-- ==== Sys2Proof/Machine/Operands.lean ====
section
/-! DEFINITION. The operand forms: fields of an operand, the operands a quirk selects, effective addresses,
the count of a bulk transfer, decimal digits, and the waiting key. Nothing is sign-extended (spec/00_scope.md
R9). -/

namespace Sys2Proof.Machine

/-- The value of general register `x` (10_state.md R20). -/
def State.reg (s : State) (x : RegId) : Byte := s.v[x]

/-- NNN zero-extended to 16 bits (30_encoding.md R91). -/
def zextAddr (nnn : BitVec 12) : Word := nnn.setWidth 16

/-- A register's byte zero-extended to 16 bits (00_scope.md R10). -/
def zextByte (b : Byte) : Word := b.setWidth 16

/-- The register named by the top nibble of an address operand (30_encoding.md R91). -/
def topNibble (nnn : BitVec 12) : RegId := (nnn.extractLsb' 8 4).toFin

/-- bits[3:0] of a register's byte: a key (44_timers_keys_random.md R203) or a glyph (42_index_memory.md
R173). -/
def lowNibble (b : Byte) : Fin 16 := (b.extractLsb' 0 4).toFin

/-- The register whose value JP V0 adds: X under the BXNN quirk, else V0 (40_control_flow.md R126). -/
def jumpOffsetReg (q : Quirks) (nnn : BitVec 12) : RegId := if q.bxnn then topNibble nnn else 0

/-- The register a shift reads: X under the SHIFT quirk, else Y (41_load_alu.md R156). -/
def shiftSource (q : Quirks) (x y : RegId) : RegId := if q.shift then x else y

/-- `EA = i + k`, a natural number that never wraps (42_index_memory.md R170). -/
def State.ea (s : State) (k : Nat) : Nat := s.i.toNat + k

/-- How many bytes a bulk transfer up to register X moves (42_index_memory.md R175). -/
def State.transferCount (s : State) (x : RegId) : Nat :=
  if s.cfg.memSize ≤ s.i.toNat then 0 else min (x.val + 1) (s.cfg.memSize - s.i.toNat)

/-- How far `i` advances after `n` bytes were moved; LS_NO_INC wins (42_index_memory.md R175). -/
def transferAdvance (q : Quirks) (n : Nat) : Nat :=
  if q.lsNoInc then 0 else if q.lsIncX then n - 1 else n

/-- Hundreds, tens, units (42_index_memory.md R174). -/
def decimalDigits (a : Byte) : List Byte := [a / 100, a / 10 % 10, a % 10]

/-- The address of the glyph of the low nibble (42_index_memory.md R173). -/
def glyphAddr (b : Byte) : Word := BitVec.ofNat 16 (fontBase + 5 * (lowNibble b).val)

/-- Whether the key named by the low nibble of a register is down (44_timers_keys_random.md R203). -/
def State.keyDown (s : State) (b : Byte) : Bool := s.key[lowNibble b]

/-- The lowest-numbered key that is down, if any (44_timers_keys_random.md R206). -/
def State.leastKey (s : State) : Option KeyId := (List.finRange 16).find? (fun k => s.key[k])

/-- A key's number as a register value. -/
def keyByte (k : KeyId) : Byte := BitVec.ofNat 8 k.val

end Sys2Proof.Machine
end

