-- ==== Sys2Proof/Machine/Prng.lean ====
section
/-! DEFINITION. The pseudo-random generator (spec/44_timers_keys_random.md R210 to R213). -/

namespace Sys2Proof.Machine

/-- `prng[k]`, bits[8k+7:8k] of the state word (10_state.md R31). -/
def prngByte (p : BitVec 32) (k : Nat) : Byte := p.extractLsb' (8 * k) 8

/-- The default PRNG_NEXT, a four-byte xorshift (R212; log 3). -/
def xorshift (p : BitVec 32) : BitVec 32 :=
  let t := prngByte p 0 ^^^ (prngByte p 0 <<< 4)
  let n2 := prngByte p 3
  let n3 := n2 ^^^ t ^^^ (n2 >>> 1) ^^^ (t <<< 1)
  n3 ++ n2 ++ prngByte p 2 ++ prngByte p 1

/-- The linear function over GF(2) with these values at single bits, on the lowest `n` bits of `p`. -/
def xorColumns (column : Nat → BitVec 32) (p : BitVec 32) : Nat → BitVec 32
  | 0 => 0
  | n + 1 => xorColumns column p n ^^^ (if p.getLsbD n then column n else 0)

/-- PRNG_NEXT: a total function of the four state bytes with the all-zero state as a fixed point
(R210 (a), (b)), linear over GF(2) (00_scope.md R1 (c), 90_conflicts.md C3; log 16). -/
def prngNext (r : PrngRule) (p : BitVec 32) : BitVec 32 :=
  match r with
  | .standard => xorshift p
  | .other k => xorColumns (Config.otherPrngColumn k) p 32

/-- The byte an invocation returns: the fourth of the new state (R210 (c)). -/
def prngOutput (p : BitVec 32) : Byte := prngByte p 3

end Sys2Proof.Machine
end

