-- ==== Sys2Proof/Machine/Ops.lean ====
section
/-! DEFINITION. The operations that the meanings share: register writes, moving `pc`, the fault, the stall,
and the CHECK and FETCH phases of a step (spec/60_exceptions.md R220 to R226). -/

namespace Sys2Proof.Machine

/-- `v <- w`, the register file as a whole (10_state.md R20). -/
def State.setV (s : State) (w : Vector Byte 16) : State := { s with v := w }

/-- `v[x] <- b` (10_state.md R20). -/
def State.setReg (s : State) (x : RegId) (b : Byte) : State := s.setV (s.v.set x b)

/-- `i <- a` (10_state.md R35). -/
def State.setI (s : State) (a : Word) : State := { s with i := a }

/-- `pc <- a` (10_state.md R24). -/
def State.setPc (s : State) (a : Word) : State := { s with pc := a }

/-- `sp <- n` (10_state.md R28). -/
def State.setSp (s : State) (n : Byte) : State := { s with sp := n }

/-- The return stack as a whole (10_state.md R36). -/
def State.setStack (s : State) (w : Vector Word 16) : State := { s with stack := w }

/-- `dt <- b` (10_state.md R29). -/
def State.setDt (s : State) (b : Byte) : State := { s with dt := b }

/-- `st <- b` (10_state.md R29). -/
def State.setSt (s : State) (b : Byte) : State := { s with st := b }

/-- `vblank <- n` (10_state.md R30). -/
def State.setVblank (s : State) (n : Nat) : State := { s with vblank := n }

/-- `prng <- p` (10_state.md R31). -/
def State.setPrng (s : State) (p : BitVec 32) : State := { s with prng := p }

/-- `acc <- q` (10_state.md R32). -/
def State.setAcc (s : State) (q : Rat) : State := { s with acc := q }

/-- The key state as a whole (10_state.md R37). -/
def State.setKeys (s : State) (w : Vector Bool 16) : State := { s with key := w }

/-- The display buffer as a whole (10_state.md R39). -/
def State.setDisp (s : State) (d : List Byte) : State := { s with disp := d }

/-- `pc <- pc + 2`, modulo 65536 (10_state.md R24). -/
def State.advance (s : State) : State := s.setPc (s.pc + 2)

/-- `pc <- pc + 4` when the condition holds, else `pc <- pc + 2` (40_control_flow.md R120). -/
def State.skipIf (s : State) (c : Bool) : State := s.setPc (if c then s.pc + 4 else s.pc + 2)

/-- The end of an instruction that produces a result and a flag: the result to `v[x]`, then the flag to
VF, then `pc + 2` (41_load_alu.md R141). -/
def State.finishAlu (s : State) (x : RegId) (result flag : Byte) : State :=
  ((s.setReg x result).setReg vf flag).advance

/-- The end of OR, AND and XOR: the result to `v[x]`, then 0 to VF under the VF_RESET quirk
(41_load_alu.md R150). -/
def State.finishLogic (s : State) (x : RegId) (result : Byte) : State :=
  if s.cfg.quirks.vfReset then s.finishAlu x result 0 else (s.setReg x result).advance

/-- The causes of a fault: labels of the spec, recorded nowhere (60_exceptions.md R225). -/
inductive FaultKind where
  | stackOverflow
  | stackUnderflow
  | pcOutOfRange
  deriving DecidableEq, Repr

/-- `raise Fault(kind)`: `pc <- 0x0000` and no other write; nothing is saved and no mode changes
(60_exceptions.md R224). There is no return from it (R232). -/
def State.raiseFault (s : State) (_kind : FaultKind) : State := s.setPc 0

/-- `stall`: no state change whatsoever (60_exceptions.md R226), CHECK's write to `pc` having come before it
(log 7). -/
def State.stall (s : State) : State := s

/-- CHECK: `pc > MEM_SIZE - 2` is a fault, and the step goes on at 0x000 (60_exceptions.md R221). -/
def State.checkPc (s : State) : State :=
  if s.cfg.memSize < s.pc.toNat + 2 then s.raiseFault .pcOutOfRange else s

/-- FETCH: the word at `pc`, big-endian, `pc` unmoved (60_exceptions.md R222, 20_memory.md R62). -/
def State.fetch (s : State) : Option Word :=
  match s.readByte s.pc.toNat, s.readByte (s.pc.toNat + 1) with
  | some high, some low => some (wordOfBytes high low)
  | _, _ => none

end Sys2Proof.Machine
end

