-- ==== Sys2Proof/Machine/ControlFlow.lean ====
section
/-! DEFINITION. The control-transfer instructions (spec/40_control_flow.md). -/

namespace Sys2Proof.Machine

/-- JP addr (R121). -/
def execJp (nnn : BitVec 12) (s : State) : Result := .next (s.setPc (zextAddr nnn))

/-- JP V0, addr: a 16-bit sum, not reduced modulo 4096 (R126). -/
def execJpV0 (nnn : BitVec 12) (s : State) : Result :=
  .next (s.setPc (zextAddr nnn + zextByte (s.reg (jumpOffsetReg s.cfg.quirks nnn))))

/-- CALL addr: pushes its own address; with sp >= 16 it faults and leaves the stack alone (R123). -/
def execCall (nnn : BitVec 12) (s : State) : Result :=
  if h : s.sp.toNat < 16 then
    .next (((s.setStack (s.stack.set s.sp.toNat s.pc)).setSp (s.sp + 1)).setPc (zextAddr nnn))
  else .next (s.raiseFault .stackOverflow)

/-- RET: pops and resumes two past the popped address; with sp = 0 it faults (R122). An sp above 16 is
no state of the machine (10_state.md R28; log 8). -/
def execRet (s : State) : Result :=
  if s.sp = 0 then .next (s.raiseFault .stackUnderflow)
  else if h : (s.sp - 1).toNat < 16 then
    .next ((s.setSp (s.sp - 1)).setPc (s.stack[(s.sp - 1).toNat] + 2))
  else .fault .noSuchStackEntry

/-- SE Vx, byte (R124). -/
def execSeImm (x : RegId) (nn : Byte) (s : State) : Result := .next (s.skipIf (s.reg x == nn))

/-- SNE Vx, byte (R125). -/
def execSneImm (x : RegId) (nn : Byte) (s : State) : Result := .next (s.skipIf (s.reg x != nn))

/-- SE Vx, Vy (R127). -/
def execSeReg (x y : RegId) (s : State) : Result := .next (s.skipIf (s.reg x == s.reg y))

/-- SNE Vx, Vy (R128). -/
def execSneReg (x y : RegId) (s : State) : Result := .next (s.skipIf (s.reg x != s.reg y))

end Sys2Proof.Machine
end

