-- ==== Sys2Proof/Machine/Display.lean ====
section
/-! DEFINITION. The display instructions (spec/43_display.md). -/

namespace Sys2Proof.Machine

/-- CLS: every pixel 0; not gated by the vblank budget (R190). -/
def execCls (s : State) : Result :=
  .next (s.setDisp (List.replicate (s.cfg.width * s.cfg.height) 0)).advance

/-- Where coordinate `p` falls on an axis of `size` pixels: itself, wrapped round under the WRAP quirk, or
nowhere when clipped (R192). -/
def onAxis (wrap : Bool) (size p : Nat) : Option Nat :=
  if p < size then some p else if wrap then some (p % size) else none

/-- `disp[y*W + x]` (10_state.md R39). -/
def cellIndex (cfg : Config) (x y : Nat) : Nat := y * cfg.width + x

/-- Bit `7 - col` of a sprite byte: the most significant bit is leftmost (R192). -/
def spriteBit (b : Byte) (col : Nat) : Bool := b.getLsbD (7 - col)

/-- The cells that row `yy` of the screen gets from sprite byte `b` drawn from column `x0`, in column
order (R192). -/
def rowCells (cfg : Config) (x0 yy : Nat) (b : Byte) : List Nat :=
  (List.range 8).filterMap fun col =>
    if spriteBit b col then
      (onAxis cfg.quirks.wrap cfg.width (x0 + col)).map fun xx => cellIndex cfg xx yy
    else none

/-- The cells of sprite row `r`: none when its byte is beyond memory or the row is clipped (R192). -/
def State.spriteRow (s : State) (x0 y0 r : Nat) : List Nat :=
  match s.readByte (s.ea r), onAxis s.cfg.quirks.wrap s.cfg.height (y0 + r) with
  | some b, some yy => rowCells s.cfg x0 yy b
  | _, _ => []

/-- The cells a sprite of `n` rows flips, in drawing order: rows from the first, columns from the left
(R192). -/
def State.spriteCells (s : State) (x0 y0 n : Nat) : List Nat :=
  (List.range n).flatMap fun r => s.spriteRow x0 y0 r

/-- The display while a sprite is drawn, and whether a collision has happened. -/
structure Canvas where
  disp : List Byte
  hit : Bool
  deriving DecidableEq, Repr

/-- A set sprite bit on cell `k`: a collision if the pixel was 1, then the XOR (R192). -/
def Canvas.flip (c : Canvas) (k : Nat) : Canvas :=
  { disp := c.disp.modify k (· ^^^ 1), hit := c.hit || c.disp[k]? == some 1 }

/-- The sprite on the display (R192). -/
def State.drawSprite (s : State) (x0 y0 n : Nat) : Canvas :=
  (s.spriteCells x0 y0 n).foldl Canvas.flip ⟨s.disp, false⟩

/-- The start coordinates, reduced modulo W and H whatever the quirk (R192). -/
def State.startX (s : State) (x : RegId) : Nat := (s.reg x).toNat % s.cfg.width

/-- See `startX`. -/
def State.startY (s : State) (y : RegId) : Nat := (s.reg y).toNat % s.cfg.height

/-- A draw that the gate lets through: display, then VF, then `pc + 2` (R192). -/
def State.draw (s : State) (x y : RegId) (n : Fin 16) : State :=
  let c := s.drawSprite (s.startX x) (s.startY y) n.val
  ((s.setDisp c.disp).setReg vf (flagByte c.hit)).advance

/-- DRW Vx, Vy, nibble: under the VBLANK quirk an empty budget stalls and a draw takes one unit (R191,
R192). -/
def execDrw (x y : RegId) (n : Fin 16) (s : State) : Result :=
  if s.cfg.quirks.vblank then
    if s.vblank = 0 then .next s.stall
    else .next ((s.setVblank (s.vblank - 1)).draw x y n)
  else .next (s.draw x y n)

end Sys2Proof.Machine
end

