-- ==== Sys2Proof/Machine/IndexMemory.lean ====
section
/-! DEFINITION. The index-register and memory instructions (spec/42_index_memory.md). An access at or
beyond MEM_SIZE is skipped (20_memory.md R63). -/

namespace Sys2Proof.Machine

/-- LD I, addr (R171). -/
def execLdI (nnn : BitVec 12) (s : State) : Result := .next (s.setI (zextAddr nnn)).advance

/-- ADD I, Vx: modulo 65536, no flag (R172). -/
def execAddI (x : RegId) (s : State) : Result := .next (s.setI (s.i + zextByte (s.reg x))).advance

/-- LD F, Vx (R173). -/
def execLdF (x : RegId) (s : State) : Result := .next (s.setI (glyphAddr (s.reg x))).advance

/-- LD B, Vx: three decimal digits from `i`, `i` unchanged (R174). -/
def execLdB (x : RegId) (s : State) : Result :=
  .next (s.writeBytes (s.ea 0) (decimalDigits (s.reg x))).advance

/-- The advance of `i` that ends a bulk transfer of `n` bytes (R175). -/
def State.advanceI (s : State) (n : Nat) : State :=
  s.setI (s.i + BitVec.ofNat 16 (transferAdvance s.cfg.quirks n))

/-- `v[0]` to `v[n-1]`, the bytes a store moves (R176). -/
def State.firstRegs (s : State) (n : Nat) : List Byte := s.v.toList.take n

/-- `v[k] <- mem[i + k]` for k below `n` (R178). -/
def State.loadFirstRegs (s : State) (n : Nat) : State :=
  s.setV (Vector.ofFn fun k =>
    if k.val < n then (s.readByte (s.ea k)).getD (s.reg k) else s.reg k)

/-- LD [I], Vx (R176). -/
def execStoreRegs (x : RegId) (s : State) : Result :=
  let n := s.transferCount x
  .next ((s.writeBytes (s.ea 0) (s.firstRegs n)).advanceI n).advance

/-- LD Vx, [I] (R178). -/
def execLoadRegs (x : RegId) (s : State) : Result :=
  let n := s.transferCount x
  .next ((s.loadFirstRegs n).advanceI n).advance

end Sys2Proof.Machine
end

