-- ==== Sys2Proof/Machine/LoadAlu.lean ====
section
/-! DEFINITION. The register load and ALU instructions (spec/41_load_alu.md): operands are read first, the
result is written to `v[x]`, the flag to VF last (R141). -/

namespace Sys2Proof.Machine

/-- LD Vx, byte (R142). -/
def execLdImm (x : RegId) (nn : Byte) (s : State) : Result := .next (s.setReg x nn).advance

/-- ADD Vx, byte: no flag (R143). -/
def execAddImm (x : RegId) (nn : Byte) (s : State) : Result :=
  .next (s.setReg x (s.reg x + nn)).advance

/-- LD Vx, Vy (R144). -/
def execLdReg (x y : RegId) (s : State) : Result := .next (s.setReg x (s.reg y)).advance

/-- OR Vx, Vy (R150, R151). -/
def execOr (x y : RegId) (s : State) : Result := .next (s.finishLogic x (s.reg x ||| s.reg y))

/-- AND Vx, Vy (R150, R152). -/
def execAnd (x y : RegId) (s : State) : Result := .next (s.finishLogic x (s.reg x &&& s.reg y))

/-- XOR Vx, Vy (R150, R153). -/
def execXor (x y : RegId) (s : State) : Result := .next (s.finishLogic x (s.reg x ^^^ s.reg y))

/-- ADD Vx, Vy (R154). -/
def execAddReg (x y : RegId) (s : State) : Result :=
  .next (s.finishAlu x (s.reg x + s.reg y) (carryFlag (s.reg x) (s.reg y)))

/-- SUB Vx, Vy: v[x] - v[y] (R155). -/
def execSub (x y : RegId) (s : State) : Result :=
  .next (s.finishAlu x (s.reg x - s.reg y) (aboveFlag (s.reg x) (s.reg y)))

/-- SUBN Vx, Vy: v[y] - v[x] (R157). -/
def execSubn (x y : RegId) (s : State) : Result :=
  .next (s.finishAlu x (s.reg y - s.reg x) (aboveFlag (s.reg y) (s.reg x)))

/-- SHR Vx, Vy (R156). -/
def execShr (x y : RegId) (s : State) : Result :=
  let a := s.reg (shiftSource s.cfg.quirks x y)
  .next (s.finishAlu x (a >>> 1) (shrFlag a))

/-- SHL Vx, Vy (R158). -/
def execShl (x y : RegId) (s : State) : Result :=
  let a := s.reg (shiftSource s.cfg.quirks x y)
  .next (s.finishAlu x (a <<< 1) (shlFlag a))

end Sys2Proof.Machine
end

