-- ==== Sys2Proof/Machine/TimersKeysRandom.lean ====
section
/-! DEFINITION. The timer, key and random instructions (spec/44_timers_keys_random.md). -/

namespace Sys2Proof.Machine

/-- LD Vx, DT (R200). -/
def execLdVxDt (x : RegId) (s : State) : Result := .next (s.setReg x s.dt).advance

/-- LD DT, Vx (R201). -/
def execLdDtVx (x : RegId) (s : State) : Result := .next (s.setDt (s.reg x)).advance

/-- LD ST, Vx (R202). -/
def execLdStVx (x : RegId) (s : State) : Result := .next (s.setSt (s.reg x)).advance

/-- SKP Vx (R204). -/
def execSkp (x : RegId) (s : State) : Result := .next (s.skipIf (s.keyDown (s.reg x)))

/-- SKNP Vx (R205). -/
def execSknp (x : RegId) (s : State) : Result := .next (s.skipIf (!s.keyDown (s.reg x)))

/-- LD Vx, K: the lowest key down; a stall while there is none (R206). -/
def execLdVxK (x : RegId) (s : State) : Result :=
  match s.leastKey with
  | none => .next s.stall
  | some k => .next (s.setReg x (keyByte k)).advance

/-- RND Vx, byte: one invocation of the PRNG, its output masked (R211). -/
def execRnd (x : RegId) (nn : Byte) (s : State) : Result :=
  let p := prngNext s.cfg.prngRule s.prng
  .next ((s.setPrng p).setReg x (prngOutput p &&& nn)).advance

end Sys2Proof.Machine
end

