-- ==== Sys2Proof/Machine/Step.lean ====
section
/-! DEFINITION. The step (spec/60_exceptions.md R220): CHECK, FETCH, DECODE, EXECUTE. -/

namespace Sys2Proof.Machine

/-- One step: CHECK may move `pc` to 0x000; the word there is fetched; a word with no row stalls; a
recognised one is executed, and moves `pc` itself (R220 to R223, R226). DEDUCED: a stall of any of R227's
three causes, met at 0x000 after CHECK moved `pc` there, leaves `pc` = 0x000 (log 7). The fault is the model's
own, for a memory too small to hold a word (log 8). -/
def step (s : State) : Host.Outcome State Fault Refusal :=
  match s.checkPc.fetch with
  | none => .fault .noSuchAddress
  | some w =>
    match decode w with
    | .ok i => exec i s.checkPc
    | .error _ => .next s.checkPc.stall

/-- `s` with the word made of the `nbits` low bits of `w` stored where the next step fetches: at `pc`
after CHECK, big-endian. Nothing else changes. A stand-in for the host's `load_rom` (log 14). -/
def State.withFetchWord (s : State) (nbits w : Nat) : State :=
  s.writeBytes s.checkPc.pc.toNat (bytesOfWord (BitVec.ofNat 16 (w % 2 ^ nbits)))

end Sys2Proof.Machine
end

