-- ==== Sys2Proof/Machine/Assembler.lean ====
section
/-! DEFINITION. The assembly syntax (spec/30_encoding.md R100): mnemonics, operands with the destination
first, one word a line, and the directive DB. -/

namespace Sys2Proof.Machine

/-- The mnemonics of R96 without their operands. -/
inductive Mnemonic where
  | CLS | RET | JP | CALL | SE | SNE | LD | ADD | OR | AND | XOR | SUB | SHR | SUBN | SHL
  | RND | DRW | SKP | SKNP
  deriving DecidableEq, Repr

/-- The operands of R100: `Vx`, `byte`, `addr`, `nibble`, and the literal names. -/
inductive Operand where
  | reg (x : RegId)
  | byte (nn : Byte)
  | addr (nnn : BitVec 12)
  | nibble (n : Fin 16)
  | I | DT | ST | K | F | B | atI
  deriving DecidableEq, Repr

/-- A source line: an instruction, or raw bytes. -/
inductive Line where
  | instr (m : Mnemonic) (operands : List Operand)
  | db (bytes : List Byte)
  deriving DecidableEq, Repr

/-- The instruction of a source line (R96, R100). -/
def parse : Mnemonic → List Operand → Option Instr
  | .CLS, [] => some .cls
  | .RET, [] => some .ret
  | .JP, [.addr a] => some (.jp a)
  | .CALL, [.addr a] => some (.call a)
  | .SE, [.reg x, .byte b] => some (.seImm x b)
  | .SNE, [.reg x, .byte b] => some (.sneImm x b)
  | .SE, [.reg x, .reg y] => some (.seReg x y)
  | .LD, [.reg x, .byte b] => some (.ldImm x b)
  | .ADD, [.reg x, .byte b] => some (.addImm x b)
  | .LD, [.reg x, .reg y] => some (.ldReg x y)
  | .OR, [.reg x, .reg y] => some (.orReg x y)
  | .AND, [.reg x, .reg y] => some (.andReg x y)
  | .XOR, [.reg x, .reg y] => some (.xorReg x y)
  | .ADD, [.reg x, .reg y] => some (.addReg x y)
  | .SUB, [.reg x, .reg y] => some (.subReg x y)
  | .SHR, [.reg x, .reg y] => some (.shr x y)
  | .SUBN, [.reg x, .reg y] => some (.subn x y)
  | .SHL, [.reg x, .reg y] => some (.shl x y)
  | .SNE, [.reg x, .reg y] => some (.sneReg x y)
  | .LD, [.I, .addr a] => some (.ldI a)
  | .JP, [.reg r, .addr a] => if r = 0 then some (.jpV0 a) else none
  | .RND, [.reg x, .byte b] => some (.rnd x b)
  | .DRW, [.reg x, .reg y, .nibble n] => some (.drw x y n)
  | .SKP, [.reg x] => some (.skp x)
  | .SKNP, [.reg x] => some (.sknp x)
  | .LD, [.reg x, .DT] => some (.ldVxDt x)
  | .LD, [.reg x, .K] => some (.ldVxK x)
  | .LD, [.DT, .reg x] => some (.ldDtVx x)
  | .LD, [.ST, .reg x] => some (.ldStVx x)
  | .ADD, [.I, .reg x] => some (.addI x)
  | .LD, [.F, .reg x] => some (.ldF x)
  | .LD, [.B, .reg x] => some (.ldB x)
  | .LD, [.atI, .reg x] => some (.storeRegs x)
  | .LD, [.reg x, .atI] => some (.loadRegs x)
  | _, _ => none

/-- The bytes of a source line, none where it is no line of the language (R100). -/
def assembleLine : Line → Option (List Byte)
  | .instr m ops => (parse m ops).map (fun i => bytesOfWord (encode i))
  | .db bytes => some bytes

/-- The image of a program, the first word at 0x200 (R100). -/
def assemble (lines : List Line) : Option (List Byte) := (lines.mapM assembleLine).map List.flatten

end Sys2Proof.Machine
end

