-- ==== Sys2Proof/Machine/Transactions.lean ====
section
/-! DEFINITION. The block's interface: creation and the host's atomic transactions (spec/60_exceptions.md
R235, R236, R240 to R251; spec/20_memory.md R75; spec/70_reset_and_hazards.md R260 to R263; log 13). -/

namespace Sys2Proof.Machine

/-! ## The effect of each transaction on a running machine -/

/-- The Registers record (60_exceptions.md R244). -/
structure Registers where
  v : Vector Byte 16
  i : Word
  pc : Word
  sp : Byte
  stack : Vector Word 16
  dt : Byte
  st : Byte
  deriving DecidableEq, Repr

/-- `reset()` (70_reset_and_hazards.md R260): `prng`, `key` and `acc` are not written. -/
def State.doReset (s : State) : State := State.afterReset s.cfg s.prng s.acc s.key

/-- `load_rom`: the bytes that fit, from 0x200; nothing else (20_memory.md R75). -/
def State.loadRom (s : State) (image : List Byte) : State :=
  s.writeBytes programBase.toNat (image.take (s.cfg.memSize - programBase.toNat))

/-- `set_rng_seed`: the whole state word; zero is stored like any value (60_exceptions.md R243). -/
def State.setRngSeed (s : State) (seed : BitVec 32) : State := s.setPrng seed

/-- `get_registers` (R244). -/
def State.getRegisters (s : State) : Registers :=
  { v := s.v, i := s.i, pc := s.pc, sp := s.sp, stack := s.stack, dt := s.dt, st := s.st }

/-- `set_registers`, refused when sp > 16 (R244). -/
def State.setRegisters (s : State) (r : Registers) : Result :=
  if spLegal r.sp then
    .next { s with v := r.v, i := r.i, pc := r.pc, sp := r.sp, stack := r.stack, dt := r.dt, st := r.st }
  else .refused .spAboveSixteen

/-- `get_display`: the buffer and its size (R245). -/
def State.getDisplay (s : State) : List Byte × Nat := (s.disp, s.cfg.width * s.cfg.height)

/-- `set_display`, refused unless the size is W*H and every byte is 0 or 1 (R247; log 15). -/
def State.setDisplay (s : State) (bytes : List Byte) : Result :=
  if displayLegal s.cfg bytes then .next (s.setDisp bytes) else .refused .badDisplay

/-- `get_memory`: all MEM_SIZE bytes (R245). -/
def State.getMemory (s : State) : List Byte :=
  (List.range s.cfg.memSize).map (Memory.get s.cfg s.mem)

/-- `Tick(n)`: both timers count down n ticks, floored at 0; the budget becomes n (R235). -/
def State.tick (s : State) (n : Nat) : State :=
  ((s.setDt (BitVec.ofNat 8 (s.dt.toNat - n))).setSt (BitVec.ofNat 8 (s.st.toNat - n))).setVblank n

/-- T, the tick period in milliseconds, exactly 50/3 (R236). -/
def tickMs : Rat := 1000 / 60

/-- The whole ticks in an amount of milliseconds (R236). -/
def wholeTicks (ms : Rat) : Nat := (ms / tickMs).floor.toNat

/-- The argument of `update_timers`, typed f32 by the source: a number of milliseconds, or none
(R236; log 12). -/
inductive DeltaMs where
  | finite (ms : Rat)
  | nonFinite
  deriving DecidableEq, Repr

/-- `update_timers` for a delta of `ms` milliseconds: the whole ticks elapse, the fraction stays (R236). -/
def State.elapse (s : State) (ms : Rat) : State :=
  let total := s.acc + ms
  let n := wholeTicks total
  (s.setAcc (total - n * tickMs)).tick n

/-- `update_timers`, refused for a negative or non-finite delta (R236, D19). -/
def State.updateTimers (s : State) : DeltaMs → Result
  | .finite ms => if 0 ≤ ms then .next (s.elapse ms) else .refused .badDelta
  | .nonFinite => .refused .badDelta

/-- `press_key` and `release_key`, refused for a key above 15 (R250, R251). -/
def State.setKey (s : State) (k : Nat) (down : Bool) : Result :=
  if h : k < 16 then .next (s.setKeys (s.key.set k down)) else .refused .noSuchKey

/-- `n` steps, ending early only where the model itself stops (log 8). -/
def runSteps : Nat → State → Result
  | 0, s => .next s
  | n + 1, s =>
    match step s with
    | .next t => runSteps n t
    | .fault r => .fault r
    | .refused r => .refused r

/-- `step_frame`: CPF steps and nothing else (R249). -/
def State.stepFrame (s : State) : Result := runSteps s.cfg.cyclesPerFrame s

/-- The quirk bitset as `get_config` shows it, with the spec's own bit positions (10_state.md R34, D22). -/
def quirkBits (q : Quirks) : BitVec 7 :=
  BitVec.ofBool q.vfReset ++ BitVec.ofBool q.vblank ++ BitVec.ofBool q.bxnn ++ BitVec.ofBool q.wrap ++
    BitVec.ofBool q.lsNoInc ++ BitVec.ofBool q.lsIncX ++ BitVec.ofBool q.shift

/-! ## The block -/

/-- The state-changing transactions (R240 to R251). A size argument is the length of its list
(log 15). -/
inductive Transaction where
  | reset
  | loadRom (image : List Byte)
  | setRngSeed (seed : BitVec 32)
  | setRegisters (r : Registers)
  | setDisplay (bytes : List Byte)
  | updateTimers (delta : DeltaMs)
  | step
  | stepFrame
  | pressKey (k : Nat)
  | releaseKey (k : Nat)
  deriving DecidableEq, Repr

/-- The block: before its first reset it holds no more than its configuration and PRNG state (every key
up, nothing accumulated, 10_state.md R51); after it, a machine. -/
inductive Block where
  | created (cfg : Config) (prng : BitVec 32)
  | running (s : State)
  deriving DecidableEq, Repr

/-- What a transaction answers. -/
abbrev BlockResult := Host.Outcome Block Fault Refusal

/-- A machine's answer as the block's. -/
def asBlock : Result → BlockResult
  | .next s => .next (.running s)
  | .fault r => .fault r
  | .refused r => .refused r

/-- `create(config)` with SEED_INIT as the free value it is (10_state.md R51; 70_reset_and_hazards.md R262,
R263). -/
def create (cfg : Config) (seedInit : BitVec 32) : BlockResult :=
  if cfg.wf then .next (.created cfg seedInit) else .refused .configOutOfRange

/-- A transaction on a running machine. -/
def State.transact (s : State) : Transaction → Result
  | .reset => .next s.doReset
  | .loadRom image => .next (s.loadRom image)
  | .setRngSeed seed => .next (s.setRngSeed seed)
  | .setRegisters r => s.setRegisters r
  | .setDisplay bytes => s.setDisplay bytes
  | .updateTimers delta => s.updateTimers delta
  | .step => Sys2Proof.Machine.step s
  | .stepFrame => s.stepFrame
  | .pressKey k => s.setKey k true
  | .releaseKey k => s.setKey k false

/-- A transaction on the block: before the first reset only `reset` and `set_rng_seed` are accepted
(10_state.md R51, 60_exceptions.md R240). -/
def Block.transact (b : Block) (t : Transaction) : BlockResult :=
  match b, t with
  | .running s, t => asBlock (s.transact t)
  | .created cfg prng, .reset => .next (.running (State.afterReset cfg prng 0 (Vector.replicate 16 false)))
  | .created cfg _, .setRngSeed seed => .next (.created cfg seed)
  | .created _ _, _ => .refused .beforeFirstReset

/-! ## Accessors (R240, R243 to R245) -/

/-- `get_rng_seed`: the current state word, at any time (R243). -/
def Block.getRngSeed : Block → BitVec 32
  | .created _ prng => prng
  | .running s => s.prng

/-- `get_config`, at any time (R240, R245). -/
def Block.getConfig : Block → Config
  | .created cfg _ => cfg
  | .running s => s.cfg

/-- `get_registers`, refused before the first reset (R51, R244). -/
def Block.getRegisters : Block → Except Refusal Registers
  | .created _ _ => .error .beforeFirstReset
  | .running s => .ok s.getRegisters

/-- `get_display`, refused before the first reset (R51, R245). -/
def Block.getDisplay : Block → Except Refusal (List Byte × Nat)
  | .created _ _ => .error .beforeFirstReset
  | .running s => .ok s.getDisplay

/-- `get_memory`, refused before the first reset (R51, R245). -/
def Block.getMemory : Block → Except Refusal (List Byte)
  | .created _ _ => .error .beforeFirstReset
  | .running s => .ok s.getMemory

end Sys2Proof.Machine
end

