-- ==== Sys2Proof/Safety.lean ====
section
/-! DEFINITION. The terms claims use: the invariant of a running machine, what a transition keeps, halted
machines, and the blocks a host can reach. -/

namespace Sys2Proof.Machine

/-- What holds of every machine a host can reach: a configuration in range (00_scope.md R5), memory in
canonical form, a display of exactly W*H bytes each 0 or 1 (10_state.md R39), `sp` at most 16 (R28), and
an accumulator in [0, T) (R32). -/
structure State.Inv (s : State) : Prop where
  cfg : s.cfg.wf
  mem : Memory.wf s.cfg s.mem
  disp : displayLegal s.cfg s.disp
  sp : spLegal s.sp
  acc : 0 ≤ s.acc ∧ s.acc < tickMs

/-- The invariant of a block. -/
def Block.Inv : Block → Prop
  | .created cfg _ => cfg.wf
  | .running s => s.Inv

/-- The blocks that creation and transactions produce. -/
inductive Reachable : Block → Prop where
  | create (cfg : Config) (seed : BitVec 32) (b : Block) : create cfg seed = .next b → Reachable b
  | transact (b c : Block) (t : Transaction) : Reachable b → b.transact t = .next c → Reachable c

/-- "The machine is halted at a state s when step(s) = s" (60_exceptions.md R228). -/
def Halted (s : State) : Prop := step s = .next s

/-- The parts of a state. -/
inductive Part where
  | cfg | v | i | pc | sp | stack | dt | st | vblank | prng | acc | key | mem | disp
  deriving DecidableEq, Repr

/-- `t` has the part as `s` has it; memory by the reading of each byte. -/
def Keeps (s t : State) : Part → Prop
  | .cfg => t.cfg = s.cfg
  | .v => ∀ x, t.reg x = s.reg x
  | .i => t.i = s.i
  | .pc => t.pc = s.pc
  | .sp => t.sp = s.sp
  | .stack => t.stack = s.stack
  | .dt => t.dt = s.dt
  | .st => t.st = s.st
  | .vblank => t.vblank = s.vblank
  | .prng => t.prng = s.prng
  | .acc => t.acc = s.acc
  | .key => t.key = s.key
  | .mem => ∀ a, t.readByte a = s.readByte a
  | .disp => t.disp = s.disp

/-- Every part but the listed ones is kept: the frame of a transition. -/
def KeepsAllBut (changed : List Part) (s t : State) : Prop := ∀ p, p ∉ changed → Keeps s t p

/-- Every general register but the listed ones is kept. -/
def KeepsRegsBut (changed : List RegId) (s t : State) : Prop := ∀ x, x ∉ changed → t.reg x = s.reg x

/-- The parts an instruction may change: the whole table of who writes what (10_state.md R22, R27 to R32,
R35 to R39). -/
def mayChange : Instr → List Part
  | .cls => [.pc, .disp]
  | .ret => [.pc, .sp]
  | .jp _ => [.pc]
  | .call _ => [.pc, .sp, .stack]
  | .seImm _ _ => [.pc]
  | .sneImm _ _ => [.pc]
  | .seReg _ _ => [.pc]
  | .ldImm _ _ => [.pc, .v]
  | .addImm _ _ => [.pc, .v]
  | .ldReg _ _ => [.pc, .v]
  | .orReg _ _ => [.pc, .v]
  | .andReg _ _ => [.pc, .v]
  | .xorReg _ _ => [.pc, .v]
  | .addReg _ _ => [.pc, .v]
  | .subReg _ _ => [.pc, .v]
  | .shr _ _ => [.pc, .v]
  | .subn _ _ => [.pc, .v]
  | .shl _ _ => [.pc, .v]
  | .sneReg _ _ => [.pc]
  | .ldI _ => [.pc, .i]
  | .jpV0 _ => [.pc]
  | .rnd _ _ => [.pc, .v, .prng]
  | .drw _ _ _ => [.pc, .v, .disp, .vblank]
  | .skp _ => [.pc]
  | .sknp _ => [.pc]
  | .ldVxDt _ => [.pc, .v]
  | .ldVxK _ => [.pc, .v]
  | .ldDtVx _ => [.pc, .dt]
  | .ldStVx _ => [.pc, .st]
  | .addI _ => [.pc, .i]
  | .ldF _ => [.pc, .i]
  | .ldB _ => [.pc, .mem]
  | .storeRegs _ => [.pc, .i, .mem]
  | .loadRegs _ => [.pc, .v, .i]

end Sys2Proof.Machine
end

