-- ==== Sys2Proof/Certificates/Slice0/Obligations.lean ====
section
/-! DEFINITION. The statements for the provers. Each docstring names the rule of spec/ it formalises.
`KeepsAllBut`, `KeepsRegsBut` and `mayChange` are the frames of Safety.lean: memory is compared by the
reading of every byte. Where a clause rests on a decision D<n> of spec/92_eei_decisions.md or a passage
G<n> of spec/93_implementation_defined.md, the docstring says so. -/

open Sys2Proof Sys2Proof.Machine

/-! ## Encoding (30_encoding.md) -/

/-- Encoding then decoding gives back every instruction, at every operand value (R96; patterns by D3). -/
def Obligations.DecodeOfEncodeIsTheInstruction : Prop := ∀ i : Instr, decode (encode i) = .ok i

/-- A recognised word has one meaning, and is the encoding of it (R93, R98; strict decoding by D4). -/
def Obligations.EncodeOfDecodeIsTheWord : Prop := ∀ (w : Word) (i : Instr), decode w = .ok i → encode i = w

/-- Words written out from the patterns of R96, one or more of each family, decode as the table says
(patterns by D3, G4). -/
def Obligations.WrittenOutWordsDecode : Prop :=
  decode 0x00E0 = .ok .cls ∧ decode 0x00EE = .ok .ret ∧ decode 0x1234 = .ok (.jp 0x234) ∧
  decode 0x2300 = .ok (.call 0x300) ∧ decode 0x322A = .ok (.seImm 2 0x2A) ∧
  decode 0x8124 = .ok (.addReg 1 2) ∧ decode 0x812E = .ok (.shl 1 2) ∧
  decode 0xA2F0 = .ok (.ldI 0x2F0) ∧ decode 0xF533 = .ok (.ldB 5) ∧
  decode 0xD125 = .ok (.drw 1 2 5) ∧ decode 0xE1A1 = .ok (.sknp 1) ∧
  decode 0xC20F = .ok (.rnd 2 0x0F) ∧ decode 0xF20A = .ok (.ldVxK 2)

/-- Every row of R96, at every operand value: the number made of the pattern's fixed digits and the
operands in their places (R91) decodes to the row's instruction (patterns by D3, G4). -/
def Obligations.EveryPatternDecodes : Prop :=
  ∀ (nnn : BitVec 12) (nn : Byte) (x y n : Fin 16),
    let word (k : Nat) := decode (BitVec.ofNat 16 k)
    let X := 256 * x.val
    let Y := 16 * y.val
    word 0x00E0 = .ok .cls ∧ word 0x00EE = .ok .ret ∧
    word (0x1000 + nnn.toNat) = .ok (.jp nnn) ∧ word (0x2000 + nnn.toNat) = .ok (.call nnn) ∧
    word (0x3000 + X + nn.toNat) = .ok (.seImm x nn) ∧ word (0x4000 + X + nn.toNat) = .ok (.sneImm x nn) ∧
    word (0x5000 + X + Y) = .ok (.seReg x y) ∧
    word (0x6000 + X + nn.toNat) = .ok (.ldImm x nn) ∧ word (0x7000 + X + nn.toNat) = .ok (.addImm x nn) ∧
    word (0x8000 + X + Y) = .ok (.ldReg x y) ∧ word (0x8001 + X + Y) = .ok (.orReg x y) ∧
    word (0x8002 + X + Y) = .ok (.andReg x y) ∧ word (0x8003 + X + Y) = .ok (.xorReg x y) ∧
    word (0x8004 + X + Y) = .ok (.addReg x y) ∧ word (0x8005 + X + Y) = .ok (.subReg x y) ∧
    word (0x8006 + X + Y) = .ok (.shr x y) ∧ word (0x8007 + X + Y) = .ok (.subn x y) ∧
    word (0x800E + X + Y) = .ok (.shl x y) ∧ word (0x9000 + X + Y) = .ok (.sneReg x y) ∧
    word (0xA000 + nnn.toNat) = .ok (.ldI nnn) ∧ word (0xB000 + nnn.toNat) = .ok (.jpV0 nnn) ∧
    word (0xC000 + X + nn.toNat) = .ok (.rnd x nn) ∧ word (0xD000 + X + Y + n.val) = .ok (.drw x y n) ∧
    word (0xE09E + X) = .ok (.skp x) ∧ word (0xE0A1 + X) = .ok (.sknp x) ∧
    word (0xF007 + X) = .ok (.ldVxDt x) ∧ word (0xF00A + X) = .ok (.ldVxK x) ∧
    word (0xF015 + X) = .ok (.ldDtVx x) ∧ word (0xF018 + X) = .ok (.ldStVx x) ∧
    word (0xF01E + X) = .ok (.addI x) ∧ word (0xF029 + X) = .ok (.ldF x) ∧
    word (0xF033 + X) = .ok (.ldB x) ∧ word (0xF055 + X) = .ok (.storeRegs x) ∧
    word (0xF065 + X) = .ok (.loadRegs x)

/-- The unrecognised words are exactly those of the table of R98 (which words they are is D4). -/
def Obligations.UnrecognisedWordsAreTheListedOnes : Prop :=
  ∀ w : Word,
    let k := w.toNat
    (∃ e, decode w = .error e) ↔
      (k < 0x1000 ∧ k ≠ 0x00E0 ∧ k ≠ 0x00EE) ∨
      (k / 4096 = 0x5 ∧ k % 16 ≠ 0) ∨
      (k / 4096 = 0x8 ∧ k % 16 ∈ [0x8, 0x9, 0xA, 0xB, 0xC, 0xD, 0xF]) ∨
      (k / 4096 = 0x9 ∧ k % 16 ≠ 0) ∨
      (k / 4096 = 0xE ∧ k % 256 ∉ [0x9E, 0xA1]) ∨
      (k / 4096 = 0xF ∧ k % 256 ∉ [0x07, 0x0A, 0x15, 0x18, 0x1E, 0x29, 0x33, 0x55, 0x65])

/-- No word matches two rows of the table (R94), and a word selects a row, (w AND mask) = match, exactly
when it decodes to an instruction of that row (R96; patterns by D3, G4). -/
def Obligations.WordsSelectAtMostOneRow : Prop :=
  ∀ w : Word,
    (∀ p ∈ opcodeTable, ∀ q ∈ opcodeTable, p.selects w → q.selects w → p = q) ∧
    (∀ r ∈ opcodeTable, r.selects w ↔ ∃ i, decode w = .ok i ∧ rowOf i = r)

/-- Every instruction has a source line, which assembles to its word's two bytes, high byte first (R100;
syntax by D25, G6). -/
def Obligations.EveryInstructionAssembles : Prop :=
  ∀ i : Instr, ∃ (m : Mnemonic) (ops : List Operand) (high low : Byte),
    parse m ops = some i ∧ assembleLine (.instr m ops) = some [high, low] ∧
    decode (high ++ low) = .ok i

/-! ## The step, faults and stalls (60_exceptions.md) -/

/-- When the two bytes at `pc` decode to an instruction, the step is that instruction's execution, which
moves `pc` itself (R220, R222, R223). -/
def Obligations.StepRunsTheDecodedInstruction : Prop :=
  ∀ (s : State) (high low : Byte) (i : Instr),
    s.readByte s.pc.toNat = some high → s.readByte (s.pc.toNat + 1) = some low →
    decode (high ++ low) = .ok i → step s = exec i s

/-- A stalled step changes nothing, fetches the same word again and stalls again, for ever while no
transaction comes between: an unrecognised word, LD Vx,K with no key down, DRW under the VBLANK quirk with
an empty budget (R226, of the causes that R227 lists). -/
def Obligations.StalledStepStallsAgain : Prop :=
  ∀ (s : State) (high low : Byte),
    s.readByte s.pc.toNat = some high → s.readByte (s.pc.toNat + 1) = some low →
    (match decode (high ++ low) with
      | .error _ => True
      | .ok (.ldVxK _) => ∀ k : KeyId, s.key[k] = false
      | .ok (.drw _ _ _) => s.cfg.quirks.vblank = true ∧ s.vblank = 0
      | .ok _ => False) →
    ∀ n, runSteps n s = .next s

/-- A `pc` above MEM_SIZE - 2 is forced to 0x000 at the start of the step, which goes on there; with the
trap word intact the step ends with `pc` = 0 and nothing else changed (R221; going on in the same step is
D9, the trap word's bytes D30). Where what has been stored at 0x000 stalls (an unrecognised word, LD Vx,K with no
key down, DRW under the VBLANK quirk with an empty budget), that the step ends with `pc` = 0, and not as it
was before CHECK, is the model's own reading, DEDUCED from R220 against R226 (log 7). -/
def Obligations.PcOutOfRangeGoesToTheFaultAddress : Prop :=
  ∀ s : State, s.Inv → s.cfg.memSize - 2 < s.pc.toNat →
    step s = step (s.setPc 0) ∧
    (s.readByte 0 = some 0x10 → s.readByte 1 = some 0x00 →
      ∃ t, step s = .next t ∧ t.pc = 0 ∧ KeepsAllBut [.pc] s t)

/-- The fetch reads two bytes big-endian at `pc`, and CHECK leaves a `pc` at which both exist (R62). -/
def Obligations.FetchIsBigEndianAndNeverOutsideMemory : Prop :=
  ∀ s : State,
    (s.pc.toNat ≤ s.cfg.memSize - 2 → 2 ≤ s.cfg.memSize →
      ∃ (high low : Byte) (w : Word), s.readByte s.pc.toNat = some high ∧
        s.readByte (s.pc.toNat + 1) = some low ∧ s.fetch = some w ∧
        w.toNat = high.toNat * 256 + low.toNat) ∧
    (s.Inv → s.checkPc.pc.toNat ≤ s.cfg.memSize - 2)

/-- Raising a fault, whatever its kind: `pc` becomes 0x0000, nothing else is written, nothing is saved,
the next step fetches at 0x000, and with a self-jump there the machine then stays as it is. Each of the
three causes raises it before any write of its own (R224). -/
def Obligations.FaultOnlySetsPcToZero : Prop :=
  ∀ (kind : FaultKind) (s : State), s.Inv →
    (s.raiseFault kind).pc = 0 ∧ KeepsAllBut [.pc] s (s.raiseFault kind) ∧
    (∀ high low, s.readByte 0 = some high → s.readByte 1 = some low →
      (s.raiseFault kind).checkPc.fetch = some (high ++ low) ∧
      (decode (high ++ low) = .ok (.jp 0) → Halted (s.raiseFault kind))) ∧
    (∀ nnn, 16 ≤ s.sp.toNat → exec (.call nnn) s = .next (s.raiseFault .stackOverflow)) ∧
    (s.sp = 0 → exec .ret s = .next (s.raiseFault .stackUnderflow)) ∧
    (s.cfg.memSize - 2 < s.pc.toNat → s.checkPc = s.raiseFault .pcOutOfRange)

/-- A step of a machine that meets the invariant always answers a next state: fetch cannot fault, no
instruction stops, an unrecognised word stalls (R222, R225, R226). -/
def Obligations.EveryStepAnswersANextState : Prop := ∀ s : State, s.Inv → ∃ t, step s = .next t

/-- Which machines are halted, step(s) = s, by the word at `pc`: an unrecognised word; a JP, or a JP V0, to
itself; the two waits while their condition lasts; a CALL or RET at 0x000 that faults; no other. The trap
loop is the first JP (R228; that a wait is for a key on its level is D15, for the budget D14, the trap
word's bytes D30, the unreduced sum of JP V0 D29, its base G9; JP V0 and the faults at 0x000 follow from R126 and R224 and are not in R228's list). -/
def Obligations.HaltedMachinesAreTheListedOnes : Prop :=
  ∀ (s : State) (high low : Byte),
    s.readByte s.pc.toNat = some high → s.readByte (s.pc.toNat + 1) = some low →
    (Halted s ↔
      match decode (high ++ low) with
      | .error _ => True
      | .ok (.jp nnn) => nnn.toNat = s.pc.toNat
      | .ok (.jpV0 nnn) => ∃ k : RegId, k.val = (if s.cfg.quirks.bxnn then nnn.toNat / 256 else 0) ∧
          nnn.toNat + (s.reg k).toNat = s.pc.toNat
      | .ok (.ldVxK _) => ∀ k : KeyId, s.key[k] = false
      | .ok (.drw _ _ _) => s.cfg.quirks.vblank = true ∧ s.vblank = 0
      | .ok (.call _) => 16 ≤ s.sp.toNat ∧ s.pc = 0
      | .ok .ret => s.sp = 0 ∧ s.pc = 0
      | .ok _ => False) ∧
    (s.pc = 0 → high = 0x10 → low = 0x00 → Halted s)

/-- `step_frame` is CPF steps, no more and no less (R249; D34): the host's own run of the core, CPF
long. -/
def Obligations.StepFrameIsThatManySteps : Prop :=
  ∀ s : State, s.stepFrame = Host.Core.run Sys2Proof.core s.cfg.cyclesPerFrame s

/-! ## Invariants -/

/-- Every step keeps the invariant: configuration in range, canonical memory, a display of W*H bytes each
0 or 1, sp at most 16, the accumulator in [0, T) (10_state.md R28, R32, R39; 20_memory.md R61). -/
def Obligations.StepKeepsTheInvariant : Prop := ∀ s t : State, s.Inv → step s = .next t → t.Inv

/-- The state after reset meets the invariant (R50). Its configuration and seed are the model's choice
(log 2, log 4). -/
def Obligations.ResetMeetsTheInvariant : Prop := State.reset.Inv

/-- Every transaction keeps the block's invariant, `reset`, `load_rom`, `set_display` and the rest, whole
frames of steps among them (R240 to R251; the refusals that keep it are D24). -/
def Obligations.TransactionsKeepTheInvariant : Prop :=
  ∀ (b c : Block) (t : Transaction), b.Inv → b.transact t = .next c → c.Inv

/-- Every block a host can reach by creation and transactions meets the invariant (R39, R28, R32). -/
def Obligations.ReachableBlocksMeetTheInvariant : Prop := ∀ b : Block, Reachable b → b.Inv

/-! ## Whole-machine rules -/

/-- Which parts of the state each instruction may change: the readers' and writers' rules of every piece
of state taken together (10_state.md R22, R27 to R32, R35 to R39). -/
def Obligations.InstructionsChangeOnlyTheirParts : Prop :=
  ∀ (i : Instr) (s t : State), exec i s = .next t → KeepsAllBut (mayChange i) s t

/-- How `pc` changes, over all instructions (10_state.md R24): by 2; by 4 in a skip; to the target in JP,
CALL, JP V0, RET; to 0 with nothing else changed in a faulting CALL or RET; or nothing changes at all, in
LD Vx,K with no key down and in DRW with the quirk on and no budget (modulo 65536 by D8). -/
def Obligations.PcMovesOnlyAsListed : Prop :=
  ∀ (i : Instr) (s t : State), exec i s = .next t →
    match i with
    | .jp nnn => t.pc.toNat = nnn.toNat
    | .jpV0 nnn => ∃ k, t.pc.toNat = nnn.toNat + (s.reg k).toNat
    | .call nnn => (s.sp.toNat < 16 ∧ t.pc.toNat = nnn.toNat) ∨ (16 ≤ s.sp.toNat ∧ t = s.setPc 0)
    | .ret => (∃ k : Fin 16, s.sp.toNat = k.val + 1 ∧ t.pc = s.stack[k] + 2) ∨ (s.sp = 0 ∧ t = s.setPc 0)
    | .seImm _ _ | .sneImm _ _ | .seReg _ _ | .sneReg _ _ | .skp _ | .sknp _ =>
      t = s.setPc (s.pc + 2) ∨ t = s.setPc (s.pc + 4)
    | .ldVxK _ => t.pc = s.pc + 2 ∨ (t = s ∧ ∀ k : KeyId, s.key[k] = false)
    | .drw _ _ _ => t.pc = s.pc + 2 ∨ (t = s ∧ s.cfg.quirks.vblank = true ∧ s.vblank = 0)
    | _ => t.pc = s.pc + 2

/-- Nothing in `step` or `step_frame` decrements a timer or refills the vblank budget: a timer changes
only where LD DT,Vx or LD ST,Vx runs, the budget never rises (R237). Of the other transactions none but
`update_timers` moves any of the three, `set_registers` apart, which writes the timers it is given (R244),
and `reset`, which writes dt = 0, st = 0 and VBLANK_RESET (R50, R260; the two zeros are the spec's decision
D20 and the budget's reset value D14, log 5). -/
def Obligations.TimersDoNotRunByThemselves : Prop :=
  (∀ s t : State, step s = .next t →
    (t.dt = s.dt ∨ ∃ w x, s.checkPc.fetch = some w ∧ decode w = .ok (.ldDtVx x) ∧ t.dt = s.reg x) ∧
    (t.st = s.st ∨ ∃ w x, s.checkPc.fetch = some w ∧ decode w = .ok (.ldStVx x) ∧ t.st = s.reg x) ∧
    t.vblank ≤ s.vblank) ∧
  (∀ s t : State, s.stepFrame = .next t →
    (t.dt = s.dt ∨ ∃ k u w x, k < s.cfg.cyclesPerFrame ∧ runSteps k s = .next u ∧
      u.checkPc.fetch = some w ∧ decode w = .ok (.ldDtVx x)) ∧
    (t.st = s.st ∨ ∃ k u w x, k < s.cfg.cyclesPerFrame ∧ runSteps k s = .next u ∧
      u.checkPc.fetch = some w ∧ decode w = .ok (.ldStVx x)) ∧
    t.vblank ≤ s.vblank) ∧
  (∀ (s t : State) (x : Transaction), s.transact x = .next t →
    match x with
    | .reset => t.dt = 0 ∧ t.st = 0 ∧ t.vblank = s.cfg.vblankReset
    | .setRegisters r => t.dt = r.dt ∧ t.st = r.st ∧ t.vblank = s.vblank
    | .updateTimers _ | .step | .stepFrame => True
    | .loadRom _ | .setRngSeed _ | .setDisplay _ | .pressKey _ | .releaseKey _ =>
      t.dt = s.dt ∧ t.st = s.st ∧ t.vblank = s.vblank)

/-- The instructions of 41_load_alu.md. -/
def Sys2Proof.Claims.loadAluFamily (x y : RegId) (nn : Byte) : List Instr :=
  [.ldImm x nn, .addImm x nn, .ldReg x y, .orReg x y, .andReg x y, .xorReg x y, .addReg x y, .subReg x y,
    .shr x y, .subn x y, .shl x y]

/-- The load and ALU family neither reads nor writes memory, `i`, the stack, the timers, the display or
the keys, never faults and never stalls: it completes from every state, moves on by 2, writes nothing but
registers, and what it writes depends on the registers and the configuration alone (41_load_alu.md
R140). -/
def Obligations.AluFamilyTouchesOnlyRegisters : Prop :=
  ∀ (x y : RegId) (nn : Byte), ∀ i ∈ Claims.loadAluFamily x y nn, ∀ s : State,
    ∃ t, exec i s = .next t ∧ t.pc = s.pc + 2 ∧ KeepsAllBut [.pc, .v] s t ∧
      ∀ s' : State, s'.v = s.v → s'.cfg = s.cfg → ∃ t', exec i s' = .next t' ∧ t'.v = t.v

/-- A byte written below MEM_SIZE is read back at its address and at no other, a write beyond changes
nothing, and no write touches another part; there is no protection (20_memory.md R60, R61, R63; D10,
D11). -/
def Obligations.MemoryReadsWhatWasWritten : Prop :=
  ∀ (s : State) (a : Nat) (b : Byte),
    (∀ c, (s.writeByte a b).readByte c = if c = a ∧ a < s.cfg.memSize then some b else s.readByte c) ∧
    KeepsAllBut [.mem] s (s.writeByte a b) ∧
    (∀ c, (∃ d, s.readByte c = some d) ↔ c < s.cfg.memSize)

/-- A program that stores two bytes just ahead of itself executes them next: LD [I],V1 with `i` = pc + 2
(20_memory.md R72). -/
def Obligations.StoredBytesAreFetchedNext : Prop :=
  ∀ s : State, s.i.toNat = s.pc.toNat + 2 → s.i.toNat + 2 ≤ s.cfg.memSize →
    ∃ t, exec (.storeRegs 1) s = .next t ∧ t.pc.toNat = s.pc.toNat + 2 ∧
      t.checkPc.fetch = some (s.reg 0 ++ s.reg 1)

/-! ## Control transfer (40_control_flow.md) -/

/-- JP (R121). -/
def Obligations.JumpGoesToItsTarget : Prop :=
  ∀ (nnn : BitVec 12) (s : State), ∃ t, exec (.jp nnn) s = .next t ∧ t.pc.toNat = nnn.toNat ∧
    KeepsAllBut [.pc] s t ∧ (s.pc.toNat = nnn.toNat → t = s)

/-- JP V0: NNN plus v[0], or under the BXNN quirk plus v[X] with X the top nibble of NNN; not reduced
modulo 4096 (R126; D29, G9). -/
def Obligations.IndexedJumpAddsTheSelectedRegister : Prop :=
  ∀ (nnn : BitVec 12) (s : State) (k : RegId),
    k.val = (if s.cfg.quirks.bxnn then nnn.toNat / 256 else 0) →
    ∃ t, exec (.jpV0 nnn) s = .next t ∧ t.pc.toNat = nnn.toNat + (s.reg k).toNat ∧ KeepsAllBut [.pc] s t

/-- CALL pushes its own address and jumps with sp below 16; with sp at 16 or more it faults and leaves
stack and sp alone (R123; D26). -/
def Obligations.CallPushesItsOwnAddress : Prop :=
  ∀ (nnn : BitVec 12) (s : State),
    (s.sp.toNat < 16 → ∃ t, exec (.call nnn) s = .next t ∧ t.pc.toNat = nnn.toNat ∧
      t.sp.toNat = s.sp.toNat + 1 ∧ KeepsAllBut [.pc, .sp, .stack] s t ∧
      ∀ k : Fin 16, t.stack[k] = if k.val = s.sp.toNat then s.pc else s.stack[k]) ∧
    (16 ≤ s.sp.toNat → ∃ t, exec (.call nnn) s = .next t ∧ t.pc = 0 ∧ KeepsAllBut [.pc] s t)

/-- RET pops and resumes two past the popped address, modulo 65536; with sp = 0 it faults (R122). An sp
above 16 is no state of the machine (10_state.md R28), and the model stops there under a name of its own
(log 8). -/
def Obligations.ReturnResumesAfterTheCall : Prop :=
  ∀ s : State,
    (∀ k : Fin 16, s.sp.toNat = k.val + 1 → ∃ t, exec .ret s = .next t ∧ t.sp.toNat = k.val ∧
      t.pc.toNat = (s.stack[k].toNat + 2) % 65536 ∧ KeepsAllBut [.pc, .sp] s t) ∧
    (s.sp = 0 → ∃ t, exec .ret s = .next t ∧ t.pc = 0 ∧ KeepsAllBut [.pc] s t) ∧
    (16 < s.sp.toNat → exec .ret s = .fault .noSuchStackEntry)

/-- A subroutine that leaves sp and the stack as it found them returns just past its CALL, with the
caller's sp (R122, R123). -/
def Obligations.ReturnUndoesCall : Prop :=
  ∀ (nnn : BitVec 12) (s t u : State), s.sp.toNat < 16 → exec (.call nnn) s = .next t →
    u.sp = t.sp → u.stack = t.stack →
    ∃ r, exec .ret u = .next r ∧ r.pc = s.pc + 2 ∧ r.sp = s.sp ∧ KeepsAllBut [.pc, .sp] u r

/-- What each of the six conditional skips tests: SE and SNE with a byte or a register, SKP and SKNP on
the key of the low nibble (R124, R125, R127, R128; 44_timers_keys_random.md R203 to R205; conditions by
G10 and G17, the nibble by D15). -/
def Sys2Proof.Claims.skipTest (s : State) : Instr → Option Bool
  | .seImm x nn => some (decide ((s.reg x).toNat = nn.toNat))
  | .sneImm x nn => some (decide ((s.reg x).toNat ≠ nn.toNat))
  | .seReg x y => some (decide ((s.reg x).toNat = (s.reg y).toNat))
  | .sneReg x y => some (decide ((s.reg x).toNat ≠ (s.reg y).toNat))
  | .skp x => some (s.key[(s.reg x).toNat % 16]'(Nat.mod_lt _ (by decide)))
  | .sknp x => some (!s.key[(s.reg x).toNat % 16]'(Nat.mod_lt _ (by decide)))
  | _ => none

/-- Each of the six conditional skips advances `pc` by 4 when its condition holds and by 2 when not, and
changes nothing else (R120, R124, R125, R127, R128, 44_timers_keys_random.md R204, R205; conditions by
G10, G17 and D15). -/
def Obligations.SkipsAdvanceByFourOrTwo : Prop :=
  ∀ (i : Instr) (s : State) (c : Bool), Claims.skipTest s i = some c →
    ∃ t, exec i s = .next t ∧ t.pc.toNat = (s.pc.toNat + if c then 4 else 2) % 65536 ∧
      KeepsAllBut [.pc] s t

/-! ## Load and ALU (41_load_alu.md) -/

/-- LD Vx,byte, ADD Vx,byte and LD Vx,Vy write v[x] and no flag (R142, R143, R144; G11, D7). -/
def Obligations.LoadsAndImmediateAddWriteOneRegister : Prop :=
  ∀ (x y : RegId) (nn : Byte) (s : State),
    (∃ t, exec (.ldImm x nn) s = .next t ∧ t.reg x = nn ∧ KeepsRegsBut [x] s t ∧
      t.pc = s.pc + 2 ∧ KeepsAllBut [.pc, .v] s t) ∧
    (∃ t, exec (.addImm x nn) s = .next t ∧ (t.reg x).toNat = ((s.reg x).toNat + nn.toNat) % 256 ∧
      KeepsRegsBut [x] s t ∧ t.pc = s.pc + 2 ∧ KeepsAllBut [.pc, .v] s t) ∧
    (∃ t, exec (.ldReg x y) s = .next t ∧ t.reg x = s.reg y ∧ KeepsRegsBut [x] s t ∧
      t.pc = s.pc + 2 ∧ KeepsAllBut [.pc, .v] s t)

/-- The bit of a logic operation's result. -/
def Sys2Proof.Claims.logicBit (x y : RegId) : List (Instr × (Bool → Bool → Bool)) :=
  [(.orReg x y, or), (.andReg x y, and), (.xorReg x y, xor)]

/-- OR, AND and XOR: bit by bit into v[x]; under the VF_RESET quirk VF then ends 0, even when x = 15, and
otherwise VF is written only as the destination (R150 to R153). -/
def Obligations.LogicResetsVfOnlyUnderTheQuirk : Prop :=
  ∀ (x y : RegId) (s : State), ∀ p ∈ Claims.logicBit x y, ∃ t, exec p.1 s = .next t ∧
    (s.cfg.quirks.vfReset = true → t.reg 15 = 0 ∧ KeepsRegsBut [x, 15] s t) ∧
    (s.cfg.quirks.vfReset = false → KeepsRegsBut [x] s t) ∧
    (s.cfg.quirks.vfReset = false ∨ x ≠ 15 → ∀ k, k < 8 →
      (t.reg x).getLsbD k = p.2 ((s.reg x).getLsbD k) ((s.reg y).getLsbD k)) ∧
    t.pc = s.pc + 2 ∧ KeepsAllBut [.pc, .v] s t

/-- ADD Vx,Vy: the sum modulo 256 in v[x], the carry in VF, written last (R154; the order at x = 15 is
D5). -/
def Obligations.AddSetsCarryInVf : Prop :=
  ∀ (x y : RegId) (s : State), ∃ t, exec (.addReg x y) s = .next t ∧
    (t.reg 15).toNat = (if 255 < (s.reg x).toNat + (s.reg y).toNat then 1 else 0) ∧
    (x ≠ 15 → (t.reg x).toNat = ((s.reg x).toNat + (s.reg y).toNat) % 256) ∧
    KeepsRegsBut [x, 15] s t ∧ t.pc = s.pc + 2 ∧ KeepsAllBut [.pc, .v] s t

/-- SUB and SUBN: the difference modulo 256 in v[x], VF 1 exactly when minuend > subtrahend, written
last (R155, R157; VF at equality is D6, the order D5, which operand is the minuend G12). -/
def Obligations.SubtractSetsVfWhenMinuendIsAbove : Prop :=
  ∀ (x y : RegId) (s : State),
    ∀ p ∈ [(Instr.subReg x y, (s.reg x).toNat, (s.reg y).toNat), (Instr.subn x y, (s.reg y).toNat, (s.reg x).toNat)],
      ∃ t, exec p.1 s = .next t ∧
        (t.reg 15).toNat = (if p.2.1 > p.2.2 then 1 else 0) ∧
        (x ≠ 15 → (t.reg x).toNat = (p.2.1 + 256 - p.2.2) % 256) ∧
        KeepsRegsBut [x, 15] s t ∧ t.pc = s.pc + 2 ∧ KeepsAllBut [.pc, .v] s t

/-- SHR and SHL by one place, of v[y], or of v[x] under the SHIFT quirk: the result in v[x], the bit
shifted out in VF, written last (R156, R158; directions by G12, the order D5). -/
def Obligations.ShiftsPutTheLostBitInVf : Prop :=
  ∀ (x y : RegId) (s : State) (a : Nat),
    a = (if s.cfg.quirks.shift then (s.reg x).toNat else (s.reg y).toNat) →
    (∃ t, exec (.shr x y) s = .next t ∧ (t.reg 15).toNat = a % 2 ∧ (x ≠ 15 → (t.reg x).toNat = a / 2) ∧
      KeepsRegsBut [x, 15] s t ∧ t.pc = s.pc + 2 ∧ KeepsAllBut [.pc, .v] s t) ∧
    (∃ t, exec (.shl x y) s = .next t ∧ (t.reg 15).toNat = a / 128 ∧
      (x ≠ 15 → (t.reg x).toNat = 2 * a % 256) ∧
      KeepsRegsBut [x, 15] s t ∧ t.pc = s.pc + 2 ∧ KeepsAllBut [.pc, .v] s t)

/-! ## Index register and memory (42_index_memory.md) -/

/-- LD I, ADD I and LD F write `i` and no flag; ADD I wraps modulo 65536 (R171, R172, R173; G13, D7, D16,
D28). -/
def Obligations.IndexLoadsWriteOnlyTheIndex : Prop :=
  ∀ (nnn : BitVec 12) (x : RegId) (s : State),
    (∃ t, exec (.ldI nnn) s = .next t ∧ t.i.toNat = nnn.toNat ∧ t.pc = s.pc + 2 ∧
      KeepsAllBut [.pc, .i] s t) ∧
    (∃ t, exec (.addI x) s = .next t ∧ t.i.toNat = (s.i.toNat + (s.reg x).toNat) % 65536 ∧
      t.pc = s.pc + 2 ∧ KeepsAllBut [.pc, .i] s t) ∧
    (∃ t, exec (.ldF x) s = .next t ∧ t.i.toNat = 0x050 + 5 * ((s.reg x).toNat % 16) ∧
      t.pc = s.pc + 2 ∧ KeepsAllBut [.pc, .i] s t)

/-- LD B writes hundreds, tens and units at i, i + 1, i + 2, each where its address is below MEM_SIZE,
every other byte as before, `i` unchanged (R174; the bound by D11). -/
def Obligations.DecimalDigitsAreStoredFromTheIndex : Prop :=
  ∀ (x : RegId) (s : State), ∃ t, exec (.ldB x) s = .next t ∧
    (∀ k : Fin 3, s.i.toNat + k.val < s.cfg.memSize → ∃ d : Byte, t.readByte (s.i.toNat + k.val) = some d ∧
      d.toNat = (s.reg x).toNat / 10 ^ (2 - k.val) % 10) ∧
    (∀ a, a < s.i.toNat ∨ s.i.toNat + 3 ≤ a → t.readByte a = s.readByte a) ∧
    t.pc = s.pc + 2 ∧ KeepsAllBut [.pc, .mem] s t

/-- How many bytes a bulk transfer moves and how far `i` advances, as R175 writes them. -/
def Sys2Proof.Claims.bulkMoved (s : State) (x : RegId) : Nat :=
  if s.i.toNat ≥ s.cfg.memSize then 0 else min (x.val + 1) (s.cfg.memSize - s.i.toNat)

/-- See `bulkMoved`. -/
def Sys2Proof.Claims.bulkAdvance (s : State) (x : RegId) : Nat :=
  if s.cfg.quirks.lsNoInc then 0
  else if s.cfg.quirks.lsIncX then
    (if Claims.bulkMoved s x = 0 then 0 else Claims.bulkMoved s x - 1)
  else Claims.bulkMoved s x

/-- LD [I],Vx stores v[0] to v[x] from `i` up, as far as memory goes, every other byte as before, no
register changed, and `i` advances by the moved bytes, one less, or not at all by the quirks (R175, R176;
G14, D11, D12). -/
def Obligations.StoreMovesRegistersToMemory : Prop :=
  ∀ (x : RegId) (s : State), ∃ t, exec (.storeRegs x) s = .next t ∧
    (∀ k : RegId, k ≤ x → s.i.toNat + k.val < s.cfg.memSize →
      t.readByte (s.i.toNat + k.val) = some (s.reg k)) ∧
    (∀ a, a < s.i.toNat ∨ s.i.toNat + x.val < a → t.readByte a = s.readByte a) ∧
    t.i.toNat = (s.i.toNat + Claims.bulkAdvance s x) % 65536 ∧
    t.pc = s.pc + 2 ∧ KeepsAllBut [.pc, .i, .mem] s t

/-- LD Vx,[I] loads v[0] to v[x] from `i` up, as far as memory goes, other registers as before, memory
unchanged, and `i` advances as for the store (R175, R178; G14, D11, D12). -/
def Obligations.LoadMovesMemoryToRegisters : Prop :=
  ∀ (x : RegId) (s : State), ∃ t, exec (.loadRegs x) s = .next t ∧
    (∀ k : RegId, k ≤ x → s.i.toNat + k.val < s.cfg.memSize →
      s.readByte (s.i.toNat + k.val) = some (t.reg k)) ∧
    (∀ k : RegId, x < k ∨ s.cfg.memSize ≤ s.i.toNat + k.val → t.reg k = s.reg k) ∧
    t.i.toNat = (s.i.toNat + Claims.bulkAdvance s x) % 65536 ∧
    t.pc = s.pc + 2 ∧ KeepsAllBut [.pc, .i, .v] s t

/-- What was stored is loaded back: after LD [I],Vx, a LD Vx,[I] from the same `i` by a machine with the
same memory gives the registers that were stored (R176, R178). -/
def Obligations.LoadAfterStoreGivesTheRegistersBack : Prop :=
  ∀ (x : RegId) (s t u : State), s.i.toNat + x.val < s.cfg.memSize → exec (.storeRegs x) s = .next t →
    u.mem = t.mem → u.cfg = t.cfg → u.i = s.i →
    ∃ r, exec (.loadRegs x) u = .next r ∧ ∀ k : RegId, k ≤ x → r.reg k = s.reg k

/-! ## Display (43_display.md) -/

/-- CLS makes every one of the W*H bytes 0, whatever the budget, and leaves VF alone (R190; G15). -/
def Obligations.ClearScreenZeroesEveryPixel : Prop :=
  ∀ s : State, ∃ t, exec .cls s = .next t ∧ t.disp.length = s.cfg.width * s.cfg.height ∧
    (∀ p ∈ t.disp, p = 0) ∧ t.pc = s.pc + 2 ∧ KeepsAllBut [.pc, .disp] s t

/-- The gate of DRW: with the VBLANK quirk and an empty budget nothing changes; with a budget it takes
one unit; without the quirk the budget is left alone (R191; D14). In the two cases that draw, `pc` moves
by 2, and only the display, VF and the budget may change. -/
def Obligations.DrawIsGatedByTheBudget : Prop :=
  ∀ (x y : RegId) (n : Fin 16) (s : State),
    (s.cfg.quirks.vblank = true → s.vblank = 0 → exec (.drw x y n) s = .next s) ∧
    (s.cfg.quirks.vblank = false ∨ 0 < s.vblank → ∃ t, exec (.drw x y n) s = .next t ∧
      t.vblank = (if s.cfg.quirks.vblank then s.vblank - 1 else s.vblank) ∧
      KeepsRegsBut [15] s t ∧ t.pc = s.pc + 2 ∧ KeepsAllBut [.pc, .v, .disp, .vblank] s t)

/-- Whether bit `col` of sprite row `r` is set and lands on column `px`, row `py` (R192): its byte is in
memory, and the coordinates agree, exactly or modulo the screen under the WRAP quirk. -/
def Sys2Proof.Claims.spriteBitOn (s : State) (x y : RegId) (px py : Nat) (r col : Nat) : Bool :=
  let X := (s.reg x).toNat % s.cfg.width + col
  let Y := (s.reg y).toNat % s.cfg.height + r
  (match s.readByte (s.i.toNat + r) with
    | none => false
    | some b => b.toNat / 2 ^ (7 - col) % 2 == 1) &&
  (if s.cfg.quirks.wrap then X % s.cfg.width == px && Y % s.cfg.height == py else X == px && Y == py)

/-- How many set bits of an `n`-row sprite land on a pixel. -/
def Sys2Proof.Claims.spriteBitsOn (s : State) (x y : RegId) (n : Nat) (px py : Nat) : Nat :=
  ((List.range n).map fun r => (List.range 8).countP (Claims.spriteBitOn s x y px py r)).sum

/-- A draw that the gate lets through flips each pixel once for every set sprite bit that lands on it,
and sets VF to 1 exactly when some set bit meets a pixel that is 1 at that moment: one that was 1 and is
hit, or one that is hit twice (R192; geometry by D13 and G16). -/
def Obligations.DrawFlipsTheSpritesPixels : Prop :=
  ∀ (x y : RegId) (n : Fin 16) (s : State), s.Inv → s.cfg.quirks.vblank = false ∨ 0 < s.vblank →
    ∃ t, exec (.drw x y n) s = .next t ∧ t.disp.length = s.cfg.width * s.cfg.height ∧
      (∀ px py, px < s.cfg.width → py < s.cfg.height → ∃ a b : Byte,
        s.disp[py * s.cfg.width + px]? = some a ∧ t.disp[py * s.cfg.width + px]? = some b ∧
        b.toNat = (a.toNat + Claims.spriteBitsOn s x y n.val px py) % 2) ∧
      (t.reg 15 = 0 ∨ t.reg 15 = 1) ∧
      (t.reg 15 = 1 ↔ ∃ px py, px < s.cfg.width ∧ py < s.cfg.height ∧
        (2 ≤ Claims.spriteBitsOn s x y n.val px py ∨
          (1 ≤ Claims.spriteBitsOn s x y n.val px py ∧
            s.disp[py * s.cfg.width + px]? = some 1)))

/-- Drawing the same sprite twice at the same place toggles its pixels back off: the display is as
before; VF is 1 after the second draw if a set bit lands on a pixel that was 0 before the first, and 0 if
no set bit lands on the screen (R192, R193; 90_conflicts.md C6). That R193's flag is meant for a pixel that
was 0 before the first draw is the model's own reading, DEDUCED from R192 (log 10). The second draw is by any machine that has the first one's display and the sprite, position,
configuration and open gate of the first. -/
def Obligations.DrawingTwiceRestoresTheDisplay : Prop :=
  ∀ (x y : RegId) (n : Fin 16) (s t u : State), s.Inv → exec (.drw x y n) s = .next t →
    (s.cfg.quirks.vblank = false ∨ 0 < s.vblank) →
    u.disp = t.disp → u.cfg = s.cfg → u.mem = s.mem → u.i = s.i → u.reg x = s.reg x → u.reg y = s.reg y →
    (u.cfg.quirks.vblank = false ∨ 0 < u.vblank) →
    ∃ r, exec (.drw x y n) u = .next r ∧ r.disp = s.disp ∧
      ((∃ px py, px < s.cfg.width ∧ py < s.cfg.height ∧ 1 ≤ Claims.spriteBitsOn s x y n.val px py ∧
        s.disp[py * s.cfg.width + px]? = some 0) → r.reg 15 = 1) ∧
      ((∀ px py, px < s.cfg.width → py < s.cfg.height → Claims.spriteBitsOn s x y n.val px py = 0) →
        r.reg 15 = 0)

/-- Whether the next step draws: its word is a DRW and the budget is not empty. -/
def Sys2Proof.Claims.drawsNext (s : State) : Bool :=
  match s.checkPc.fetch with
  | none => false
  | some w =>
    match decode w with
    | .ok (.drw _ _ _) => s.vblank != 0
    | _ => false

/-- How many of the next `n` steps draw. -/
def Sys2Proof.Claims.drawsIn : Nat → State → Nat
  | 0, _ => 0
  | n + 1, s =>
    (if Claims.drawsNext s then 1 else 0) +
      match step s with
      | .next t => Claims.drawsIn n t
      | _ => 0

/-- The budget is an allowance of draws: with the VBLANK quirk on, over any run of steps the draws
executed and the budget left add up to the budget at the start, so at most that many draw (R191, R271;
D14). -/
def Obligations.VblankBudgetIsAnAllowanceOfDraws : Prop :=
  ∀ (n : Nat) (s t : State), s.cfg.quirks.vblank = true → runSteps n s = .next t →
    Claims.drawsIn n s + t.vblank = s.vblank

/-! ## Timers, keys, random (44_timers_keys_random.md) -/

/-- LD Vx,DT, LD DT,Vx and LD ST,Vx move one byte (R200, R201, R202; G17). -/
def Obligations.TimerMovesCopyOneByte : Prop :=
  ∀ (x : RegId) (s : State),
    (∃ t, exec (.ldVxDt x) s = .next t ∧ t.reg x = s.dt ∧ KeepsRegsBut [x] s t ∧ t.pc = s.pc + 2 ∧
      KeepsAllBut [.pc, .v] s t) ∧
    (∃ t, exec (.ldDtVx x) s = .next t ∧ t.dt = s.reg x ∧ t.pc = s.pc + 2 ∧ KeepsAllBut [.pc, .dt] s t) ∧
    (∃ t, exec (.ldStVx x) s = .next t ∧ t.st = s.reg x ∧ t.pc = s.pc + 2 ∧ KeepsAllBut [.pc, .st] s t)

/-- LD Vx,K takes the lowest-numbered key that is down, and stalls while none is (R206; D15, G17). -/
def Obligations.WaitKeyTakesTheLowestKeyDown : Prop :=
  ∀ (x : RegId) (s : State),
    ((∀ k : KeyId, s.key[k] = false) → exec (.ldVxK x) s = .next s) ∧
    (∀ k : KeyId, s.key[k] = true → (∀ j : KeyId, j < k → s.key[j] = false) →
      ∃ t, exec (.ldVxK x) s = .next t ∧ (t.reg x).toNat = k.val ∧ KeepsRegsBut [x] s t ∧
        t.pc = s.pc + 2 ∧ KeepsAllBut [.pc, .v] s t)

/-- RND advances the PRNG once and gives the fourth byte of the new state ANDed with the mask, whatever
function PRNG_NEXT is (R210, R211); the zero state gives zero and stays (R210 (b), R213). -/
def Obligations.RandomIsTheMaskedFourthByte : Prop :=
  ∀ (x : RegId) (nn : Byte) (s : State), ∃ t, exec (.rnd x nn) s = .next t ∧
    t.prng = prngNext s.cfg.prngRule s.prng ∧
    (t.reg x).toNat = t.prng.toNat / 2 ^ 24 &&& nn.toNat ∧
    (s.prng = 0 → t.prng = 0 ∧ t.reg x = 0) ∧
    KeepsRegsBut [x] s t ∧ t.pc = s.pc + 2 ∧ KeepsAllBut [.pc, .v, .prng] s t

/-- The default PRNG_NEXT byte by byte: the bytes move down one place and the newest is the xorshift of
the oldest and the last one (R212). That the machine's PRNG_NEXT is this one is the spec's default (D17;
log 3), a hypothesis here. -/
def Obligations.DefaultPrngIsTheFourByteXorshift : Prop :=
  ∀ (p : BitVec 32) (r : PrngRule), r = .standard →
    let byte (q : BitVec 32) (k : Nat) := q.toNat / 256 ^ k % 256
    let q := prngNext r p
    let t := (byte p 0 ^^^ 16 * byte p 0) % 256
    byte q 0 = byte p 1 ∧ byte q 1 = byte p 2 ∧ byte q 2 = byte p 3 ∧
      byte q 3 = (byte q 2 ^^^ t ^^^ byte q 2 / 2 ^^^ 2 * t) % 256

/-! ## Timer driver and host transactions (60_exceptions.md, 70_reset_and_hazards.md) -/

/-- `Tick(n)`: both timers fall by n, floored at 0, and the budget becomes n, even when n = 0 (R235). -/
def Obligations.TickCountsBothTimersDown : Prop :=
  ∀ (n : Nat) (s : State),
    (s.tick n).dt.toNat = (if s.dt.toNat > n then s.dt.toNat - n else 0) ∧
    (s.tick n).st.toNat = (if s.st.toNat > n then s.st.toNat - n else 0) ∧
    (s.tick n).vblank = n ∧ KeepsAllBut [.dt, .st, .vblank] s (s.tick n)

/-- `update_timers` with a delta of zero or more is accepted: the whole ticks of the accumulated time
elapse and the rest stays, exactly; a negative or non-finite delta is refused (R236; exact arithmetic and
the refusal are D19, T = 1000/60 ms). -/
def Obligations.UpdateTimersCountsWholeTicks : Prop :=
  ∀ (s : State) (ms : Rat), s.Inv →
    (0 ≤ ms → ∃ (n : Nat) (t : State), s.updateTimers (.finite ms) = .next t ∧
      s.acc + ms = n * (1000 / 60) + t.acc ∧ 0 ≤ t.acc ∧ t.acc < 1000 / 60 ∧
      t.dt.toNat = s.dt.toNat - n ∧ t.st.toNat = s.st.toNat - n ∧ t.vblank = n ∧
      KeepsAllBut [.dt, .st, .vblank, .acc] s t) ∧
    (ms < 0 → s.updateTimers (.finite ms) = .refused .badDelta) ∧
    s.updateTimers .nonFinite = .refused .badDelta

/-- Time may be given in pieces: two calls leave both timers and the accumulator as one call with the sum
does (R236's property of many small deltas against one large one; exact by D19). -/
def Obligations.UpdateTimersInPiecesIsTheSame : Prop :=
  ∀ (s t u w : State) (a b : Rat), s.Inv → 0 ≤ a → 0 ≤ b →
    s.updateTimers (.finite a) = .next t → t.updateTimers (.finite b) = .next u →
    s.updateTimers (.finite (a + b)) = .next w → u.dt = w.dt ∧ u.st = w.st ∧ u.acc = w.acc

/-- `reset` on a running machine: pc 0x200, the trap word, the font, zeros elsewhere, the display of W*H
zeros, the budget VBLANK_RESET; PRNG state, keys, accumulator and configuration as before (R260, R50; the
zeros are D20, the trap word's bytes D30). -/
def Obligations.ResetLeavesTheListedValues : Prop :=
  ∀ s : State, s.cfg.wf → ∃ t, (Block.running s).transact .reset = .next (.running t) ∧
    (∀ x, t.reg x = 0) ∧ t.i = 0 ∧ t.pc = 0x0200 ∧ t.sp = 0 ∧ (∀ k : Fin 16, t.stack[k] = 0) ∧
    t.dt = 0 ∧ t.st = 0 ∧ t.vblank = s.cfg.vblankReset ∧
    t.disp = List.replicate (s.cfg.width * s.cfg.height) 0 ∧
    t.readByte 0x000 = some 0x10 ∧ t.readByte 0x001 = some 0x00 ∧
    (∀ k : Fin 80, t.readByte (0x050 + k.val) = some s.cfg.font[k]) ∧
    (∀ a, 0x001 < a → a < s.cfg.memSize → a < 0x050 ∨ 0x0A0 ≤ a → t.readByte a = some 0) ∧
    t.prng = s.prng ∧ t.key = s.key ∧ t.acc = s.acc ∧ t.cfg = s.cfg

/-- Creation and the first reset: a configuration in range is accepted with any seed, one out of range
refused; before the first reset only `reset` and `set_rng_seed` are accepted; the first reset gives a
machine that meets the invariant, with the seed, no key down and nothing accumulated (R51, R262; D21,
D23). -/
def Obligations.OnlyResetAndSeedBeforeTheFirstReset : Prop :=
  ∀ (cfg : Config) (seed : BitVec 32),
    (cfg.wf → create cfg seed = .next (.created cfg seed)) ∧
    (¬cfg.wf → create cfg seed = .refused .configOutOfRange) ∧
    (∀ t : Transaction, t ≠ .reset → (∀ n, t ≠ .setRngSeed n) →
      (Block.created cfg seed).transact t = .refused .beforeFirstReset) ∧
    (∀ n, (Block.created cfg seed).transact (.setRngSeed n) = .next (.created cfg n)) ∧
    (cfg.wf → ∃ s, (Block.created cfg seed).transact .reset = .next (.running s) ∧ s.Inv ∧
      s.cfg = cfg ∧ s.prng = seed ∧ s.acc = 0 ∧ s.pc = 0x0200 ∧ ∀ k : KeyId, s.key[k] = false)

/-- `load_rom` copies the image from 0x200, as much as fits, and changes nothing else (20_memory.md
R75). -/
def Obligations.LoadRomCopiesTheImage : Prop :=
  ∀ (s : State) (image : List Byte), s.cfg.wf → ∃ t, s.transact (.loadRom image) = .next t ∧
    (∀ k, k < min image.length (s.cfg.memSize - 0x200) → t.readByte (0x200 + k) = image[k]?) ∧
    (∀ a, a < 0x200 ∨ 0x200 + min image.length (s.cfg.memSize - 0x200) ≤ a →
      t.readByte a = s.readByte a) ∧
    KeepsAllBut [.mem] s t

/-- `set_registers` then `get_registers` gives the record back, and touches neither memory, display, keys,
PRNG, accumulator nor budget; it is refused exactly when sp > 16 (R244; the refusal is D24). -/
def Obligations.RegistersRoundTrip : Prop :=
  ∀ (s : State) (r : Registers),
    (r.sp.toNat ≤ 16 → ∃ t, s.transact (.setRegisters r) = .next t ∧ t.getRegisters = r ∧
      KeepsAllBut [.v, .i, .pc, .sp, .stack, .dt, .st] s t) ∧
    (16 < r.sp.toNat → s.transact (.setRegisters r) = .refused .spAboveSixteen)

/-- `set_display` replaces the buffer when it is W*H bytes of 0 and 1, and is refused otherwise; the seed
and the keys are set one at a time, the seed as the whole state word, a key above 15 refused (R243, R247,
R250, R251; the refusals are D24). -/
def Obligations.DisplaySeedAndKeysAreSetAlone : Prop :=
  ∀ s : State,
    (∀ bytes : List Byte, bytes.length = s.cfg.width * s.cfg.height → (∀ p ∈ bytes, p.toNat ≤ 1) →
      ∃ t, s.transact (.setDisplay bytes) = .next t ∧ t.getDisplay = (bytes, s.cfg.width * s.cfg.height) ∧
        KeepsAllBut [.disp] s t) ∧
    (∀ bytes : List Byte, bytes.length ≠ s.cfg.width * s.cfg.height ∨ (∃ p ∈ bytes, 1 < p.toNat) →
      s.transact (.setDisplay bytes) = .refused .badDisplay) ∧
    (∀ seed, ∃ t, s.transact (.setRngSeed seed) = .next t ∧ (Block.running t).getRngSeed = seed ∧
      KeepsAllBut [.prng] s t) ∧
    (∀ k : KeyId, ∃ t, s.transact (.pressKey k.val) = .next t ∧ KeepsAllBut [.key] s t ∧
      ∀ j : KeyId, t.key[j] = if j = k then true else s.key[j]) ∧
    (∀ k : KeyId, ∃ t, s.transact (.releaseKey k.val) = .next t ∧ KeepsAllBut [.key] s t ∧
      ∀ j : KeyId, t.key[j] = if j = k then false else s.key[j]) ∧
    (∀ k, 16 ≤ k → s.transact (.pressKey k) = .refused .noSuchKey ∧
      s.transact (.releaseKey k) = .refused .noSuchKey)

/-- The accessors return the state as it is: the whole memory, the display with its size, the registers,
the PRNG word, the configuration; before the first reset only the last two answer (R240, R243 to R245;
D17, D18, D21). -/
def Obligations.AccessorsReturnTheState : Prop :=
  (∀ s : State,
    (∃ bytes, (Block.running s).getMemory = .ok bytes ∧ bytes.length = s.cfg.memSize ∧
      ∀ a, bytes[a]? = s.readByte a) ∧
    (Block.running s).getDisplay = .ok (s.disp, s.cfg.width * s.cfg.height) ∧
    (∃ r, (Block.running s).getRegisters = .ok r ∧ (∀ x : RegId, r.v[x] = s.reg x) ∧ r.i = s.i ∧
      r.pc = s.pc ∧ r.sp = s.sp ∧ r.stack = s.stack ∧ r.dt = s.dt ∧ r.st = s.st) ∧
    (Block.running s).getRngSeed = s.prng ∧ (Block.running s).getConfig = s.cfg) ∧
  (∀ (cfg : Config) (seed : BitVec 32),
    (Block.created cfg seed).getMemory = .error .beforeFirstReset ∧
    (Block.created cfg seed).getDisplay = .error .beforeFirstReset ∧
    (Block.created cfg seed).getRegisters = .error .beforeFirstReset ∧
    (Block.created cfg seed).getRngSeed = seed ∧ (Block.created cfg seed).getConfig = cfg)

/-- PRNG_NEXT is linear over GF(2), whichever of the rules it is: the stream of the XOR of two states is the
XOR of their streams, and the zero state stays (00_scope.md R1 (c), 90_conflicts.md C3; that C3's condition
binds every instance, beside R210's, is DEDUCED, log 16). -/
def Obligations.PrngIsLinearWhicheverTheRule : Prop :=
  ∀ (r : PrngRule) (n : Nat) (p q : BitVec 32),
    (prngNext r)^[n] (p ^^^ q) = (prngNext r)^[n] p ^^^ (prngNext r)^[n] q ∧ (prngNext r)^[n] 0 = 0
end

