-- ==== Sys2Proof/Laws/Decode.lean ====
section
/-! SUPPORT. The decoder and the encoder as arithmetic (spec/30_encoding.md R91, R92): each field of a word
as a quotient or remainder, each format's word as a sum, and so the fields of each format's words. -/

namespace Sys2Proof

/-! ## Fields as arithmetic -/

theorem opField_toNat (w : Word) : (opField w).toNat = w.toNat / 4096 := by
  have := w.isLt
  simp [opField, BitVec.extractLsb'_toNat, Nat.shiftRight_eq_div_pow]; omega

theorem xField_val (w : Word) : (xField w).val = w.toNat / 256 % 16 := by
  simp [xField, Nat.shiftRight_eq_div_pow]

theorem yField_val (w : Word) : (yField w).val = w.toNat / 16 % 16 := by
  simp [yField, Nat.shiftRight_eq_div_pow]

theorem nField_val (w : Word) : (nField w).val = w.toNat % 16 := by
  simp [nField]

theorem nnField_toNat (w : Word) : (nnField w).toNat = w.toNat % 256 := by
  simp [nnField, BitVec.extractLsb'_toNat]

theorem nnnField_toNat (w : Word) : (nnnField w).toNat = w.toNat % 4096 := by
  simp [nnnField, BitVec.extractLsb'_toNat]

/-! ## Words as sums -/

theorem formatA_toNat (op : BitVec 4) (nnn : BitVec 12) :
    (formatA op nnn).toNat = 4096 * op.toNat + nnn.toNat := by
  rw [formatA, BitVec.toNat_append, ← Nat.shiftLeft_add_eq_or_of_lt nnn.isLt, Nat.shiftLeft_eq]; omega

theorem formatI_toNat (op : BitVec 4) (x : RegId) (nn : Byte) :
    (formatI op x nn).toNat = 4096 * op.toNat + 256 * x.val + nn.toNat := by
  have hx : (BitVec.ofFin (w := 4) x).toNat = x.val := rfl
  rw [formatI, BitVec.toNat_append, ← Nat.shiftLeft_add_eq_or_of_lt nn.isLt, BitVec.toNat_append,
    ← Nat.shiftLeft_add_eq_or_of_lt (BitVec.isLt _), hx, Nat.shiftLeft_eq, Nat.shiftLeft_eq]
  omega

theorem formatR_toNat (op : BitVec 4) (x y n : Fin 16) :
    (formatR op x y n).toNat = 4096 * op.toNat + 256 * x.val + 16 * y.val + n.val := by
  rw [formatR, BitVec.toNat_append, ← Nat.shiftLeft_add_eq_or_of_lt (BitVec.isLt _),
    BitVec.toNat_append, ← Nat.shiftLeft_add_eq_or_of_lt (BitVec.isLt _), BitVec.toNat_append,
    ← Nat.shiftLeft_add_eq_or_of_lt (BitVec.isLt _)]
  simp only [Nat.shiftLeft_eq, BitVec.toNat_ofFin]
  omega

/-! ## The fields of each format's words -/

@[simp] theorem opField_formatA (op : BitVec 4) (nnn : BitVec 12) : opField (formatA op nnn) = op := by
  apply BitVec.eq_of_toNat_eq; rw [opField_toNat, formatA_toNat]; omega

@[simp] theorem nnnField_formatA (op : BitVec 4) (nnn : BitVec 12) :
    nnnField (formatA op nnn) = nnn := by
  apply BitVec.eq_of_toNat_eq; rw [nnnField_toNat, formatA_toNat]; omega

@[simp] theorem opField_formatI (op : BitVec 4) (x : RegId) (nn : Byte) :
    opField (formatI op x nn) = op := by
  apply BitVec.eq_of_toNat_eq; rw [opField_toNat, formatI_toNat]; omega

@[simp] theorem xField_formatI (op : BitVec 4) (x : RegId) (nn : Byte) :
    xField (formatI op x nn) = x := by
  apply Fin.ext; rw [xField_val, formatI_toNat]; omega

@[simp] theorem nnField_formatI (op : BitVec 4) (x : RegId) (nn : Byte) :
    nnField (formatI op x nn) = nn := by
  apply BitVec.eq_of_toNat_eq; rw [nnField_toNat, formatI_toNat]; omega

@[simp] theorem opField_formatR (op : BitVec 4) (x y n : Fin 16) :
    opField (formatR op x y n) = op := by
  apply BitVec.eq_of_toNat_eq; rw [opField_toNat, formatR_toNat]; omega

@[simp] theorem xField_formatR (op : BitVec 4) (x y n : Fin 16) : xField (formatR op x y n) = x := by
  apply Fin.ext; rw [xField_val, formatR_toNat]; omega

@[simp] theorem yField_formatR (op : BitVec 4) (x y n : Fin 16) : yField (formatR op x y n) = y := by
  apply Fin.ext; rw [yField_val, formatR_toNat]; omega

@[simp] theorem nField_formatR (op : BitVec 4) (x y n : Fin 16) : nField (formatR op x y n) = n := by
  apply Fin.ext; rw [nField_val, formatR_toNat]; omega

/-! ## A word as its own fields -/

theorem formatA_fields (w : Word) : formatA (opField w) (nnnField w) = w := by
  apply BitVec.eq_of_toNat_eq; rw [formatA_toNat, opField_toNat, nnnField_toNat]; omega

theorem formatI_fields (w : Word) : formatI (opField w) (xField w) (nnField w) = w := by
  apply BitVec.eq_of_toNat_eq; rw [formatI_toNat, opField_toNat, nnField_toNat, xField_val]; omega

theorem formatR_fields (w : Word) : formatR (opField w) (xField w) (yField w) (nField w) = w := by
  apply BitVec.eq_of_toNat_eq
  rw [formatR_toNat, opField_toNat, nField_val, xField_val, yField_val]; omega

/-- The value `decode` matches on, as the field itself. -/
theorem opField_of_toNat {w : Word} {k : Nat} (h : (opField w).toNat = k) :
    opField w = BitVec.ofNat 4 k := by rw [← h]; simp

/-! ## The sub-decoders -/

theorem decodeKey_ok {x : RegId} {nn : Byte} {i : Instr} (h : decodeKey x nn = .ok i) :
    encode i = formatI 0xE x nn := by
  unfold decodeKey at h
  repeat' (split at h)
  all_goals first | (cases h; subst_vars; rfl) | cases h

theorem decodeMisc_ok {x : RegId} {nn : Byte} {i : Instr} (h : decodeMisc x nn = .ok i) :
    encode i = formatI 0xF x nn := by
  unfold decodeMisc at h
  repeat' (split at h)
  all_goals first | (cases h; subst_vars; rfl) | cases h

theorem decodeAlu_ok {x y n : Fin 16} {i : Instr} (h : decodeAlu x y n = .ok i) :
    encode i = formatR 0x8 x y n := by
  unfold decodeAlu at h
  split at h <;> rename_i hn
  all_goals first
    | (cases h; simp only [encode]; congr 1; apply Fin.ext; rw [hn]; rfl)
    | cases h

/-! ## Each format under each mask of the table (R92) -/

theorem formatA_maskA (op : BitVec 4) (nnn : BitVec 12) :
    formatA op nnn &&& 0xF000 = formatA op 0 := by
  have h : (0xF000 : Word) = (0xF : BitVec 4) ++ (0 : BitVec 12) := rfl
  rw [formatA, h, BitVec.and_append, formatA]
  congr 1
  · exact BitVec.and_allOnes
  · exact BitVec.and_zero

theorem formatI_maskA (op : BitVec 4) (x : RegId) (nn : Byte) :
    formatI op x nn &&& 0xF000 = formatA op 0 := by
  have h : (0xF000 : Word) = (0xF : BitVec 4) ++ (0 : BitVec 4) ++ (0 : BitVec 8) := rfl
  have h2 : formatA op 0 = op ++ (0 : BitVec 4) ++ (0 : BitVec 8) := by
    apply BitVec.eq_of_toNat_eq; rw [formatA_toNat]; exact (formatI_toNat op 0 0).symm
  rw [formatI, h, BitVec.and_append, BitVec.and_append, h2]
  congr 1
  · congr 1
    · exact BitVec.and_allOnes
    · exact BitVec.and_zero
  · exact BitVec.and_zero

theorem formatI_maskX (op : BitVec 4) (x : RegId) (nn : Byte) :
    formatI op x nn &&& 0xF0FF = formatI op 0 nn := by
  have h : (0xF0FF : Word) = (0xF : BitVec 4) ++ (0 : BitVec 4) ++ (0xFF : BitVec 8) := rfl
  rw [formatI, h, BitVec.and_append, BitVec.and_append, formatI]
  congr 1
  · congr 1
    · exact BitVec.and_allOnes
    · exact BitVec.and_zero
  · exact BitVec.and_allOnes

theorem formatR_maskR (op : BitVec 4) (x y n : Fin 16) :
    formatR op x y n &&& 0xF00F = formatR op 0 0 n := by
  have h : (0xF00F : Word) =
      (0xF : BitVec 4) ++ (0 : BitVec 4) ++ (0 : BitVec 4) ++ (0xF : BitVec 4) := rfl
  rw [formatR, h, BitVec.and_append, BitVec.and_append, BitVec.and_append, formatR]
  congr 1
  · congr 1
    · congr 1
      · exact BitVec.and_allOnes
      · exact BitVec.and_zero
    · exact BitVec.and_zero
  · exact BitVec.and_allOnes

theorem formatR_maskA (op : BitVec 4) (x y n : Fin 16) :
    formatR op x y n &&& 0xF000 = formatA op 0 := by
  have h : (0xF000 : Word) =
      (0xF : BitVec 4) ++ (0 : BitVec 4) ++ (0 : BitVec 4) ++ (0 : BitVec 4) := rfl
  have h2 : formatA op 0 = op ++ (0 : BitVec 4) ++ (0 : BitVec 4) ++ (0 : BitVec 4) := by
    apply BitVec.eq_of_toNat_eq; rw [formatA_toNat]; exact (formatR_toNat op 0 0 0).symm
  rw [formatR, h, BitVec.and_append, BitVec.and_append, BitVec.and_append, h2]
  congr 1
  · congr 1
    · congr 1
      · exact BitVec.and_allOnes
      · exact BitVec.and_zero
    · exact BitVec.and_zero
  · exact BitVec.and_zero

/-! ## Bytes and words -/

theorem wordOfBytes_toNat (high low : Byte) :
    (wordOfBytes high low).toNat = high.toNat * 256 + low.toNat := by
  rw [wordOfBytes, BitVec.toNat_append, ← Nat.shiftLeft_add_eq_or_of_lt low.isLt, Nat.shiftLeft_eq]

/-- A word's two bytes, put together again. -/
theorem wordOfBytes_bytesOfWord (w : Word) :
    wordOfBytes (w.extractLsb' 8 8) (w.extractLsb' 0 8) = w := by
  apply BitVec.eq_of_toNat_eq
  rw [wordOfBytes_toNat]
  simp [BitVec.extractLsb'_toNat, Nat.shiftRight_eq_div_pow]
  omega

end Sys2Proof
end

