-- ==== Sys2Proof/Laws/State.lean ====
section
/-! SUPPORT. One lemma per field per update of the state, so that no proof unfolds a record update. -/

namespace Sys2Proof.Machine.State

section setV
variable (s : State) (w : Vector Byte 16)
@[simp] theorem setV_cfg : (s.setV w).cfg = s.cfg := rfl
@[simp] theorem setV_v : (s.setV w).v = w := rfl
@[simp] theorem setV_i : (s.setV w).i = s.i := rfl
@[simp] theorem setV_pc : (s.setV w).pc = s.pc := rfl
@[simp] theorem setV_sp : (s.setV w).sp = s.sp := rfl
@[simp] theorem setV_stack : (s.setV w).stack = s.stack := rfl
@[simp] theorem setV_dt : (s.setV w).dt = s.dt := rfl
@[simp] theorem setV_st : (s.setV w).st = s.st := rfl
@[simp] theorem setV_vblank : (s.setV w).vblank = s.vblank := rfl
@[simp] theorem setV_prng : (s.setV w).prng = s.prng := rfl
@[simp] theorem setV_acc : (s.setV w).acc = s.acc := rfl
@[simp] theorem setV_key : (s.setV w).key = s.key := rfl
@[simp] theorem setV_mem : (s.setV w).mem = s.mem := rfl
@[simp] theorem setV_disp : (s.setV w).disp = s.disp := rfl
@[simp] theorem setV_reg (x : RegId) : (s.setV w).reg x = w[x] := rfl
@[simp] theorem setV_readByte (k : Nat) : (s.setV w).readByte k = s.readByte k := rfl
@[simp] theorem setV_ea (k : Nat) : (s.setV w).ea k = s.ea k := rfl
end setV

section setI
variable (s : State) (a : Word)
@[simp] theorem setI_cfg : (s.setI a).cfg = s.cfg := rfl
@[simp] theorem setI_v : (s.setI a).v = s.v := rfl
@[simp] theorem setI_i : (s.setI a).i = a := rfl
@[simp] theorem setI_pc : (s.setI a).pc = s.pc := rfl
@[simp] theorem setI_sp : (s.setI a).sp = s.sp := rfl
@[simp] theorem setI_stack : (s.setI a).stack = s.stack := rfl
@[simp] theorem setI_dt : (s.setI a).dt = s.dt := rfl
@[simp] theorem setI_st : (s.setI a).st = s.st := rfl
@[simp] theorem setI_vblank : (s.setI a).vblank = s.vblank := rfl
@[simp] theorem setI_prng : (s.setI a).prng = s.prng := rfl
@[simp] theorem setI_acc : (s.setI a).acc = s.acc := rfl
@[simp] theorem setI_key : (s.setI a).key = s.key := rfl
@[simp] theorem setI_mem : (s.setI a).mem = s.mem := rfl
@[simp] theorem setI_disp : (s.setI a).disp = s.disp := rfl
@[simp] theorem setI_reg (x : RegId) : (s.setI a).reg x = s.reg x := rfl
@[simp] theorem setI_readByte (k : Nat) : (s.setI a).readByte k = s.readByte k := rfl
end setI

section setPc
variable (s : State) (a : Word)
@[simp] theorem setPc_cfg : (s.setPc a).cfg = s.cfg := rfl
@[simp] theorem setPc_v : (s.setPc a).v = s.v := rfl
@[simp] theorem setPc_i : (s.setPc a).i = s.i := rfl
@[simp] theorem setPc_pc : (s.setPc a).pc = a := rfl
@[simp] theorem setPc_sp : (s.setPc a).sp = s.sp := rfl
@[simp] theorem setPc_stack : (s.setPc a).stack = s.stack := rfl
@[simp] theorem setPc_dt : (s.setPc a).dt = s.dt := rfl
@[simp] theorem setPc_st : (s.setPc a).st = s.st := rfl
@[simp] theorem setPc_vblank : (s.setPc a).vblank = s.vblank := rfl
@[simp] theorem setPc_prng : (s.setPc a).prng = s.prng := rfl
@[simp] theorem setPc_acc : (s.setPc a).acc = s.acc := rfl
@[simp] theorem setPc_key : (s.setPc a).key = s.key := rfl
@[simp] theorem setPc_mem : (s.setPc a).mem = s.mem := rfl
@[simp] theorem setPc_disp : (s.setPc a).disp = s.disp := rfl
@[simp] theorem setPc_reg (x : RegId) : (s.setPc a).reg x = s.reg x := rfl
@[simp] theorem setPc_readByte (k : Nat) : (s.setPc a).readByte k = s.readByte k := rfl
@[simp] theorem setPc_ea (k : Nat) : (s.setPc a).ea k = s.ea k := rfl
end setPc

section setSp
variable (s : State) (n : Byte)
@[simp] theorem setSp_cfg : (s.setSp n).cfg = s.cfg := rfl
@[simp] theorem setSp_v : (s.setSp n).v = s.v := rfl
@[simp] theorem setSp_i : (s.setSp n).i = s.i := rfl
@[simp] theorem setSp_pc : (s.setSp n).pc = s.pc := rfl
@[simp] theorem setSp_sp : (s.setSp n).sp = n := rfl
@[simp] theorem setSp_stack : (s.setSp n).stack = s.stack := rfl
@[simp] theorem setSp_dt : (s.setSp n).dt = s.dt := rfl
@[simp] theorem setSp_st : (s.setSp n).st = s.st := rfl
@[simp] theorem setSp_vblank : (s.setSp n).vblank = s.vblank := rfl
@[simp] theorem setSp_prng : (s.setSp n).prng = s.prng := rfl
@[simp] theorem setSp_acc : (s.setSp n).acc = s.acc := rfl
@[simp] theorem setSp_key : (s.setSp n).key = s.key := rfl
@[simp] theorem setSp_mem : (s.setSp n).mem = s.mem := rfl
@[simp] theorem setSp_disp : (s.setSp n).disp = s.disp := rfl
@[simp] theorem setSp_reg (x : RegId) : (s.setSp n).reg x = s.reg x := rfl
@[simp] theorem setSp_readByte (k : Nat) : (s.setSp n).readByte k = s.readByte k := rfl
@[simp] theorem setSp_ea (k : Nat) : (s.setSp n).ea k = s.ea k := rfl
end setSp

section setStack
variable (s : State) (w : Vector Word 16)
@[simp] theorem setStack_cfg : (s.setStack w).cfg = s.cfg := rfl
@[simp] theorem setStack_v : (s.setStack w).v = s.v := rfl
@[simp] theorem setStack_i : (s.setStack w).i = s.i := rfl
@[simp] theorem setStack_pc : (s.setStack w).pc = s.pc := rfl
@[simp] theorem setStack_sp : (s.setStack w).sp = s.sp := rfl
@[simp] theorem setStack_stack : (s.setStack w).stack = w := rfl
@[simp] theorem setStack_dt : (s.setStack w).dt = s.dt := rfl
@[simp] theorem setStack_st : (s.setStack w).st = s.st := rfl
@[simp] theorem setStack_vblank : (s.setStack w).vblank = s.vblank := rfl
@[simp] theorem setStack_prng : (s.setStack w).prng = s.prng := rfl
@[simp] theorem setStack_acc : (s.setStack w).acc = s.acc := rfl
@[simp] theorem setStack_key : (s.setStack w).key = s.key := rfl
@[simp] theorem setStack_mem : (s.setStack w).mem = s.mem := rfl
@[simp] theorem setStack_disp : (s.setStack w).disp = s.disp := rfl
@[simp] theorem setStack_reg (x : RegId) : (s.setStack w).reg x = s.reg x := rfl
@[simp] theorem setStack_readByte (k : Nat) : (s.setStack w).readByte k = s.readByte k := rfl
@[simp] theorem setStack_ea (k : Nat) : (s.setStack w).ea k = s.ea k := rfl
end setStack

section setDt
variable (s : State) (b : Byte)
@[simp] theorem setDt_cfg : (s.setDt b).cfg = s.cfg := rfl
@[simp] theorem setDt_v : (s.setDt b).v = s.v := rfl
@[simp] theorem setDt_i : (s.setDt b).i = s.i := rfl
@[simp] theorem setDt_pc : (s.setDt b).pc = s.pc := rfl
@[simp] theorem setDt_sp : (s.setDt b).sp = s.sp := rfl
@[simp] theorem setDt_stack : (s.setDt b).stack = s.stack := rfl
@[simp] theorem setDt_dt : (s.setDt b).dt = b := rfl
@[simp] theorem setDt_st : (s.setDt b).st = s.st := rfl
@[simp] theorem setDt_vblank : (s.setDt b).vblank = s.vblank := rfl
@[simp] theorem setDt_prng : (s.setDt b).prng = s.prng := rfl
@[simp] theorem setDt_acc : (s.setDt b).acc = s.acc := rfl
@[simp] theorem setDt_key : (s.setDt b).key = s.key := rfl
@[simp] theorem setDt_mem : (s.setDt b).mem = s.mem := rfl
@[simp] theorem setDt_disp : (s.setDt b).disp = s.disp := rfl
@[simp] theorem setDt_reg (x : RegId) : (s.setDt b).reg x = s.reg x := rfl
@[simp] theorem setDt_readByte (k : Nat) : (s.setDt b).readByte k = s.readByte k := rfl
@[simp] theorem setDt_ea (k : Nat) : (s.setDt b).ea k = s.ea k := rfl
end setDt

section setSt
variable (s : State) (b : Byte)
@[simp] theorem setSt_cfg : (s.setSt b).cfg = s.cfg := rfl
@[simp] theorem setSt_v : (s.setSt b).v = s.v := rfl
@[simp] theorem setSt_i : (s.setSt b).i = s.i := rfl
@[simp] theorem setSt_pc : (s.setSt b).pc = s.pc := rfl
@[simp] theorem setSt_sp : (s.setSt b).sp = s.sp := rfl
@[simp] theorem setSt_stack : (s.setSt b).stack = s.stack := rfl
@[simp] theorem setSt_dt : (s.setSt b).dt = s.dt := rfl
@[simp] theorem setSt_st : (s.setSt b).st = b := rfl
@[simp] theorem setSt_vblank : (s.setSt b).vblank = s.vblank := rfl
@[simp] theorem setSt_prng : (s.setSt b).prng = s.prng := rfl
@[simp] theorem setSt_acc : (s.setSt b).acc = s.acc := rfl
@[simp] theorem setSt_key : (s.setSt b).key = s.key := rfl
@[simp] theorem setSt_mem : (s.setSt b).mem = s.mem := rfl
@[simp] theorem setSt_disp : (s.setSt b).disp = s.disp := rfl
@[simp] theorem setSt_reg (x : RegId) : (s.setSt b).reg x = s.reg x := rfl
@[simp] theorem setSt_readByte (k : Nat) : (s.setSt b).readByte k = s.readByte k := rfl
@[simp] theorem setSt_ea (k : Nat) : (s.setSt b).ea k = s.ea k := rfl
end setSt

section setVblank
variable (s : State) (n : Nat)
@[simp] theorem setVblank_cfg : (s.setVblank n).cfg = s.cfg := rfl
@[simp] theorem setVblank_v : (s.setVblank n).v = s.v := rfl
@[simp] theorem setVblank_i : (s.setVblank n).i = s.i := rfl
@[simp] theorem setVblank_pc : (s.setVblank n).pc = s.pc := rfl
@[simp] theorem setVblank_sp : (s.setVblank n).sp = s.sp := rfl
@[simp] theorem setVblank_stack : (s.setVblank n).stack = s.stack := rfl
@[simp] theorem setVblank_dt : (s.setVblank n).dt = s.dt := rfl
@[simp] theorem setVblank_st : (s.setVblank n).st = s.st := rfl
@[simp] theorem setVblank_vblank : (s.setVblank n).vblank = n := rfl
@[simp] theorem setVblank_prng : (s.setVblank n).prng = s.prng := rfl
@[simp] theorem setVblank_acc : (s.setVblank n).acc = s.acc := rfl
@[simp] theorem setVblank_key : (s.setVblank n).key = s.key := rfl
@[simp] theorem setVblank_mem : (s.setVblank n).mem = s.mem := rfl
@[simp] theorem setVblank_disp : (s.setVblank n).disp = s.disp := rfl
@[simp] theorem setVblank_reg (x : RegId) : (s.setVblank n).reg x = s.reg x := rfl
@[simp] theorem setVblank_readByte (k : Nat) : (s.setVblank n).readByte k = s.readByte k := rfl
@[simp] theorem setVblank_ea (k : Nat) : (s.setVblank n).ea k = s.ea k := rfl
end setVblank

section setPrng
variable (s : State) (p : BitVec 32)
@[simp] theorem setPrng_cfg : (s.setPrng p).cfg = s.cfg := rfl
@[simp] theorem setPrng_v : (s.setPrng p).v = s.v := rfl
@[simp] theorem setPrng_i : (s.setPrng p).i = s.i := rfl
@[simp] theorem setPrng_pc : (s.setPrng p).pc = s.pc := rfl
@[simp] theorem setPrng_sp : (s.setPrng p).sp = s.sp := rfl
@[simp] theorem setPrng_stack : (s.setPrng p).stack = s.stack := rfl
@[simp] theorem setPrng_dt : (s.setPrng p).dt = s.dt := rfl
@[simp] theorem setPrng_st : (s.setPrng p).st = s.st := rfl
@[simp] theorem setPrng_vblank : (s.setPrng p).vblank = s.vblank := rfl
@[simp] theorem setPrng_prng : (s.setPrng p).prng = p := rfl
@[simp] theorem setPrng_acc : (s.setPrng p).acc = s.acc := rfl
@[simp] theorem setPrng_key : (s.setPrng p).key = s.key := rfl
@[simp] theorem setPrng_mem : (s.setPrng p).mem = s.mem := rfl
@[simp] theorem setPrng_disp : (s.setPrng p).disp = s.disp := rfl
@[simp] theorem setPrng_reg (x : RegId) : (s.setPrng p).reg x = s.reg x := rfl
@[simp] theorem setPrng_readByte (k : Nat) : (s.setPrng p).readByte k = s.readByte k := rfl
@[simp] theorem setPrng_ea (k : Nat) : (s.setPrng p).ea k = s.ea k := rfl
end setPrng

section setAcc
variable (s : State) (q : Rat)
@[simp] theorem setAcc_cfg : (s.setAcc q).cfg = s.cfg := rfl
@[simp] theorem setAcc_v : (s.setAcc q).v = s.v := rfl
@[simp] theorem setAcc_i : (s.setAcc q).i = s.i := rfl
@[simp] theorem setAcc_pc : (s.setAcc q).pc = s.pc := rfl
@[simp] theorem setAcc_sp : (s.setAcc q).sp = s.sp := rfl
@[simp] theorem setAcc_stack : (s.setAcc q).stack = s.stack := rfl
@[simp] theorem setAcc_dt : (s.setAcc q).dt = s.dt := rfl
@[simp] theorem setAcc_st : (s.setAcc q).st = s.st := rfl
@[simp] theorem setAcc_vblank : (s.setAcc q).vblank = s.vblank := rfl
@[simp] theorem setAcc_prng : (s.setAcc q).prng = s.prng := rfl
@[simp] theorem setAcc_acc : (s.setAcc q).acc = q := rfl
@[simp] theorem setAcc_key : (s.setAcc q).key = s.key := rfl
@[simp] theorem setAcc_mem : (s.setAcc q).mem = s.mem := rfl
@[simp] theorem setAcc_disp : (s.setAcc q).disp = s.disp := rfl
@[simp] theorem setAcc_reg (x : RegId) : (s.setAcc q).reg x = s.reg x := rfl
@[simp] theorem setAcc_readByte (k : Nat) : (s.setAcc q).readByte k = s.readByte k := rfl
@[simp] theorem setAcc_ea (k : Nat) : (s.setAcc q).ea k = s.ea k := rfl
end setAcc

section setKeys
variable (s : State) (w : Vector Bool 16)
@[simp] theorem setKeys_cfg : (s.setKeys w).cfg = s.cfg := rfl
@[simp] theorem setKeys_v : (s.setKeys w).v = s.v := rfl
@[simp] theorem setKeys_i : (s.setKeys w).i = s.i := rfl
@[simp] theorem setKeys_pc : (s.setKeys w).pc = s.pc := rfl
@[simp] theorem setKeys_sp : (s.setKeys w).sp = s.sp := rfl
@[simp] theorem setKeys_stack : (s.setKeys w).stack = s.stack := rfl
@[simp] theorem setKeys_dt : (s.setKeys w).dt = s.dt := rfl
@[simp] theorem setKeys_st : (s.setKeys w).st = s.st := rfl
@[simp] theorem setKeys_vblank : (s.setKeys w).vblank = s.vblank := rfl
@[simp] theorem setKeys_prng : (s.setKeys w).prng = s.prng := rfl
@[simp] theorem setKeys_acc : (s.setKeys w).acc = s.acc := rfl
@[simp] theorem setKeys_key : (s.setKeys w).key = w := rfl
@[simp] theorem setKeys_mem : (s.setKeys w).mem = s.mem := rfl
@[simp] theorem setKeys_disp : (s.setKeys w).disp = s.disp := rfl
@[simp] theorem setKeys_reg (x : RegId) : (s.setKeys w).reg x = s.reg x := rfl
@[simp] theorem setKeys_readByte (k : Nat) : (s.setKeys w).readByte k = s.readByte k := rfl
@[simp] theorem setKeys_ea (k : Nat) : (s.setKeys w).ea k = s.ea k := rfl
end setKeys

section setMem
variable (s : State) (m : Memory)
@[simp] theorem setMem_cfg : (s.setMem m).cfg = s.cfg := rfl
@[simp] theorem setMem_v : (s.setMem m).v = s.v := rfl
@[simp] theorem setMem_i : (s.setMem m).i = s.i := rfl
@[simp] theorem setMem_pc : (s.setMem m).pc = s.pc := rfl
@[simp] theorem setMem_sp : (s.setMem m).sp = s.sp := rfl
@[simp] theorem setMem_stack : (s.setMem m).stack = s.stack := rfl
@[simp] theorem setMem_dt : (s.setMem m).dt = s.dt := rfl
@[simp] theorem setMem_st : (s.setMem m).st = s.st := rfl
@[simp] theorem setMem_vblank : (s.setMem m).vblank = s.vblank := rfl
@[simp] theorem setMem_prng : (s.setMem m).prng = s.prng := rfl
@[simp] theorem setMem_acc : (s.setMem m).acc = s.acc := rfl
@[simp] theorem setMem_key : (s.setMem m).key = s.key := rfl
@[simp] theorem setMem_mem : (s.setMem m).mem = m := rfl
@[simp] theorem setMem_disp : (s.setMem m).disp = s.disp := rfl
@[simp] theorem setMem_reg (x : RegId) : (s.setMem m).reg x = s.reg x := rfl
@[simp] theorem setMem_ea (k : Nat) : (s.setMem m).ea k = s.ea k := rfl
end setMem

section setDisp
variable (s : State) (d : List Byte)
@[simp] theorem setDisp_cfg : (s.setDisp d).cfg = s.cfg := rfl
@[simp] theorem setDisp_v : (s.setDisp d).v = s.v := rfl
@[simp] theorem setDisp_i : (s.setDisp d).i = s.i := rfl
@[simp] theorem setDisp_pc : (s.setDisp d).pc = s.pc := rfl
@[simp] theorem setDisp_sp : (s.setDisp d).sp = s.sp := rfl
@[simp] theorem setDisp_stack : (s.setDisp d).stack = s.stack := rfl
@[simp] theorem setDisp_dt : (s.setDisp d).dt = s.dt := rfl
@[simp] theorem setDisp_st : (s.setDisp d).st = s.st := rfl
@[simp] theorem setDisp_vblank : (s.setDisp d).vblank = s.vblank := rfl
@[simp] theorem setDisp_prng : (s.setDisp d).prng = s.prng := rfl
@[simp] theorem setDisp_acc : (s.setDisp d).acc = s.acc := rfl
@[simp] theorem setDisp_key : (s.setDisp d).key = s.key := rfl
@[simp] theorem setDisp_mem : (s.setDisp d).mem = s.mem := rfl
@[simp] theorem setDisp_disp : (s.setDisp d).disp = d := rfl
@[simp] theorem setDisp_reg (x : RegId) : (s.setDisp d).reg x = s.reg x := rfl
@[simp] theorem setDisp_readByte (k : Nat) : (s.setDisp d).readByte k = s.readByte k := rfl
@[simp] theorem setDisp_ea (k : Nat) : (s.setDisp d).ea k = s.ea k := rfl
end setDisp

section setReg
variable (s : State) (x : RegId) (b : Byte)
@[simp] theorem setReg_cfg : (s.setReg x b).cfg = s.cfg := rfl
@[simp] theorem setReg_i : (s.setReg x b).i = s.i := rfl
@[simp] theorem setReg_pc : (s.setReg x b).pc = s.pc := rfl
@[simp] theorem setReg_sp : (s.setReg x b).sp = s.sp := rfl
@[simp] theorem setReg_stack : (s.setReg x b).stack = s.stack := rfl
@[simp] theorem setReg_dt : (s.setReg x b).dt = s.dt := rfl
@[simp] theorem setReg_st : (s.setReg x b).st = s.st := rfl
@[simp] theorem setReg_vblank : (s.setReg x b).vblank = s.vblank := rfl
@[simp] theorem setReg_prng : (s.setReg x b).prng = s.prng := rfl
@[simp] theorem setReg_acc : (s.setReg x b).acc = s.acc := rfl
@[simp] theorem setReg_key : (s.setReg x b).key = s.key := rfl
@[simp] theorem setReg_mem : (s.setReg x b).mem = s.mem := rfl
@[simp] theorem setReg_disp : (s.setReg x b).disp = s.disp := rfl
@[simp] theorem setReg_readByte (k : Nat) : (s.setReg x b).readByte k = s.readByte k := rfl
@[simp] theorem setReg_ea (k : Nat) : (s.setReg x b).ea k = s.ea k := rfl

/-- A register write and the reading of every register after it. -/
theorem setReg_reg (y : RegId) : (s.setReg x b).reg y = if y = x then b else s.reg y := by
  have h : (s.setReg x b).reg y = (s.v.set x b)[y.val] := rfl
  rw [h, Vector.getElem_set]
  by_cases hxy : y = x
  · simp [hxy]
  · have : x.val ≠ y.val := fun e => hxy (Fin.ext e.symm)
    simp [hxy, this, reg]

@[simp] theorem setReg_reg_same : (s.setReg x b).reg x = b := by simp [setReg_reg]

theorem setReg_reg_ne {y : RegId} (h : y ≠ x) : (s.setReg x b).reg y = s.reg y := by
  simp [setReg_reg, h]
end setReg

/-! The one-line operations in terms of the updates. -/

@[simp] theorem advance_eq (s : State) : s.advance = s.setPc (s.pc + 2) := rfl
@[simp] theorem skipIf_eq (s : State) (c : Bool) :
    s.skipIf c = s.setPc (if c then s.pc + 4 else s.pc + 2) := rfl
@[simp] theorem raiseFault_eq (s : State) (kind : FaultKind) : s.raiseFault kind = s.setPc 0 := rfl
@[simp] theorem stall_eq (s : State) : s.stall = s := rfl

end Sys2Proof.Machine.State
end

