-- ==== Sys2Proof/Laws/Memory.lean ====
section
/-! SUPPORT. Laws of main memory (spec/20_memory.md): a read after a write, the canonical form kept, and
equal readings of canonical memories are equal memories. -/

namespace Sys2Proof.Machine

namespace Memory

@[simp] theorem find_nil (a : Nat) : find a [] = none := rfl

@[simp] theorem find_cons (a k : Nat) (b : Byte) (m : Memory) :
    find a ((k, b) :: m) = if k = a then some b else find a m := rfl

theorem find_insert (a c : Nat) (b : Byte) (m : Memory) :
    find c (insert a b m) = if c = a then some b else find c m := by
  induction m with
  | nil => simp [insert, eq_comm]
  | cons hd tl ih =>
    obtain ⟨k, d⟩ := hd
    simp only [insert]
    split
    · simp only [find_cons, eq_comm]
    · split
      · subst_vars; by_cases h : c = k <;> simp [h, eq_comm]
      · rename_i h1 h2
        by_cases h : c = a
        · subst h; simp [ih, Ne.symm h2]
        · simp [ih, h]

theorem find_erase (a c : Nat) (m : Memory) :
    find c (erase a m) = if c = a then none else find c m := by
  induction m with
  | nil => simp [erase]
  | cons hd tl ih =>
    obtain ⟨k, d⟩ := hd
    simp only [erase]
    split <;> rename_i hk
    · rw [ih]; by_cases h : c = a
      · simp [h]
      · have : ¬k = c := fun e => h (e ▸ hk)
        simp [h, this]
    · by_cases h : c = a
      · subst h; simp [ih, hk]
      · simp [ih, h]

/-- A read after a write: the written byte at its address, the old byte elsewhere. -/
theorem get_set (cfg : Config) (m : Memory) (a c : Nat) (b : Byte) :
    get cfg (set cfg m a b) c = if c = a then b else get cfg m c := by
  unfold set get
  by_cases h : c = a
  · subst h; split <;> simp [find_erase, find_insert, *]
  · split <;> simp [find_erase, find_insert, h]

/-! ## The canonical form -/

theorem insert_keys {a : Nat} {b : Byte} {m : Memory} {c : Host.Cell} (h : c ∈ insert a b m) :
    c = (a, b) ∨ c ∈ m := by
  induction m with
  | nil => simpa [insert] using h
  | cons hd tl ih =>
    simp only [insert] at h
    split at h
    · simpa using h
    · split at h
      · rcases List.mem_cons.1 h with h | h <;> simp [h]
      · rcases List.mem_cons.1 h with h | h
        · simp [h]
        · rcases ih h with h | h <;> simp [h]

theorem erase_sublist (a : Nat) (m : Memory) : (erase a m).Sublist m := by
  induction m with
  | nil => exact List.Sublist.refl _
  | cons hd tl ih =>
    simp only [erase]; split
    · exact ih.cons _
    · exact ih.cons_cons _

theorem insert_sorted {a : Nat} {b : Byte} {m : Memory} (h : m.Pairwise (fun p q => p.1 < q.1)) :
    (insert a b m).Pairwise (fun p q => p.1 < q.1) := by
  induction m with
  | nil => simp [insert]
  | cons hd tl ih =>
    obtain ⟨hhd, htl⟩ := List.pairwise_cons.1 h
    simp only [insert]
    split <;> rename_i h1
    · refine List.pairwise_cons.2 ⟨fun c hc => ?_, h⟩
      rcases List.mem_cons.1 hc with rfl | hc
      · exact h1
      · exact Nat.lt_trans h1 (hhd c hc)
    · split <;> rename_i h2
      · subst h2; exact List.pairwise_cons.2 ⟨hhd, htl⟩
      · refine List.pairwise_cons.2 ⟨fun c hc => ?_, ih htl⟩
        rcases insert_keys hc with rfl | hc
        · simp only; omega
        · exact hhd c hc

/-- Every write keeps the canonical form. -/
theorem set_wf {cfg : Config} {m : Memory} {a : Nat} {b : Byte} (h : wf cfg m) (ha : a < cfg.memSize) :
    wf cfg (set cfg m a b) := by
  unfold set
  split <;> rename_i hb
  · exact ⟨h.1.sublist (erase_sublist a m), fun c hc => h.2 c ((erase_sublist a m).subset hc)⟩
  · refine ⟨insert_sorted h.1, fun c hc => ?_⟩
    rcases insert_keys hc with rfl | hc
    · exact ⟨ha, hb⟩
    · exact h.2 c hc

theorem nil_wf (cfg : Config) : wf cfg [] := by simp [wf]

theorem find_of_lt {m : Memory} {a : Nat} (h : ∀ c ∈ m, a < c.1) : find a m = none := by
  induction m with
  | nil => rfl
  | cons hd tl ih =>
    have h1 := h hd (by simp)
    rw [show hd = (hd.1, hd.2) from rfl, find_cons, if_neg (by omega)]
    exact ih fun c hc => h c (by simp [hc])

/-- In canonical form, memories that read alike are equal. -/
theorem eq_of_get_eq {cfg : Config} {m n : Memory} (hm : wf cfg m) (hn : wf cfg n)
    (h : ∀ a, get cfg m a = get cfg n a) : m = n := by
  induction m generalizing n with
  | nil =>
    cases n with
    | nil => rfl
    | cons hd tl =>
      obtain ⟨k, b⟩ := hd
      exact absurd (by simpa [get] using (h k).symm) (hn.2 (k, b) (by simp)).2
  | cons p m ih =>
    cases n with
    | nil =>
      obtain ⟨k, b⟩ := p
      exact absurd (by simpa [get] using h k) (hm.2 (k, b) (by simp)).2
    | cons q n =>
      obtain ⟨k, b⟩ := p
      obtain ⟨l, c⟩ := q
      obtain ⟨hpm, hmm⟩ := List.pairwise_cons.1 hm.1
      obtain ⟨hqn, hnn⟩ := List.pairwise_cons.1 hn.1
      have hb := (hm.2 (k, b) (by simp)).2
      have hc := (hn.2 (l, c) (by simp)).2
      have hkl : k = l := by
        rcases Nat.lt_trichotomy k l with hlt | heq | hgt
        · have : find k ((l, c) :: n) = none := find_of_lt fun d hd => by
            rcases List.mem_cons.1 hd with rfl | hd
            · exact hlt
            · exact Nat.lt_trans hlt (hqn d hd)
          have h1 := h k
          rw [get, get, this] at h1
          exact absurd (by simpa using h1) hb
        · exact heq
        · have : find l ((k, b) :: m) = none := find_of_lt fun d hd => by
            rcases List.mem_cons.1 hd with rfl | hd
            · exact hgt
            · exact Nat.lt_trans hgt (hpm d hd)
          have h1 := h l
          rw [get, get, this] at h1
          exact absurd (by simpa using h1.symm) hc
      subst hkl
      have hbc : b = c := by simpa [get] using h k
      subst hbc
      congr 1
      refine ih ⟨hmm, fun d hd => hm.2 d (by simp [hd])⟩ ⟨hnn, fun d hd => hn.2 d (by simp [hd])⟩ fun a => ?_
      by_cases ha : a = k
      · subst ha
        have h1 : find a m = none := find_of_lt hpm
        have h2 : find a n = none := find_of_lt hqn
        simp [get, h1, h2]
      · have := h a
        simpa [get, Ne.symm ha] using this

end Memory

namespace State

/-! ## Bytes of a state -/

theorem readByte_eq_some {s : State} {a : Nat} {b : Byte} (h : s.readByte a = some b) :
    a < s.cfg.memSize ∧ b = Memory.get s.cfg s.mem a := by
  unfold readByte at h
  split at h
  · exact ⟨‹_›, by simpa using h.symm⟩
  · exact absurd h (by simp)

theorem readByte_lt {s : State} {a : Nat} (h : a < s.cfg.memSize) :
    s.readByte a = some (Memory.get s.cfg s.mem a) := by simp [readByte, h]

theorem readByte_ge {s : State} {a : Nat} (h : s.cfg.memSize ≤ a) : s.readByte a = none := by
  simp [readByte, Nat.not_lt.2 h]

theorem readByte_writeByte (s : State) (a c : Nat) (b : Byte) :
    (s.writeByte a b).readByte c =
      if c = a ∧ a < s.cfg.memSize then some b else s.readByte c := by
  unfold writeByte
  split <;> rename_i h
  · unfold readByte
    simp only [setMem_cfg, setMem_mem, Memory.get_set]
    by_cases hc : c = a
    · subst hc; simp [h]
    · simp [hc]
  · simp [h]

/-- A byte write changes nothing but memory. -/
theorem writeByte_eq (s : State) (a : Nat) (b : Byte) : ∃ m, s.writeByte a b = s.setMem m := by
  unfold writeByte
  split
  · exact ⟨_, rfl⟩
  · exact ⟨s.mem, rfl⟩

/-- A run of byte writes changes nothing but memory. -/
theorem writeBytes_eq (s : State) (a : Nat) (bs : List Byte) : ∃ m, s.writeBytes a bs = s.setMem m := by
  induction bs generalizing s a with
  | nil => exact ⟨s.mem, rfl⟩
  | cons b bs ih =>
    obtain ⟨m, hm⟩ := writeByte_eq s a b
    obtain ⟨n, hn⟩ := ih (s.writeByte a b) (a + 1)
    exact ⟨n, by rw [writeBytes, hn, hm]; rfl⟩

@[simp] theorem writeByte_cfg (s : State) (a : Nat) (b : Byte) : (s.writeByte a b).cfg = s.cfg := by
  obtain ⟨m, h⟩ := writeByte_eq s a b; rw [h]; rfl
@[simp] theorem writeByte_v (s : State) (a : Nat) (b : Byte) : (s.writeByte a b).v = s.v := by
  obtain ⟨m, h⟩ := writeByte_eq s a b; rw [h]; rfl
@[simp] theorem writeByte_i (s : State) (a : Nat) (b : Byte) : (s.writeByte a b).i = s.i := by
  obtain ⟨m, h⟩ := writeByte_eq s a b; rw [h]; rfl
@[simp] theorem writeByte_pc (s : State) (a : Nat) (b : Byte) : (s.writeByte a b).pc = s.pc := by
  obtain ⟨m, h⟩ := writeByte_eq s a b; rw [h]; rfl
@[simp] theorem writeByte_sp (s : State) (a : Nat) (b : Byte) : (s.writeByte a b).sp = s.sp := by
  obtain ⟨m, h⟩ := writeByte_eq s a b; rw [h]; rfl
@[simp] theorem writeByte_stack (s : State) (a : Nat) (b : Byte) : (s.writeByte a b).stack = s.stack := by
  obtain ⟨m, h⟩ := writeByte_eq s a b; rw [h]; rfl
@[simp] theorem writeByte_dt (s : State) (a : Nat) (b : Byte) : (s.writeByte a b).dt = s.dt := by
  obtain ⟨m, h⟩ := writeByte_eq s a b; rw [h]; rfl
@[simp] theorem writeByte_st (s : State) (a : Nat) (b : Byte) : (s.writeByte a b).st = s.st := by
  obtain ⟨m, h⟩ := writeByte_eq s a b; rw [h]; rfl
@[simp] theorem writeByte_vblank (s : State) (a : Nat) (b : Byte) : (s.writeByte a b).vblank = s.vblank := by
  obtain ⟨m, h⟩ := writeByte_eq s a b; rw [h]; rfl
@[simp] theorem writeByte_prng (s : State) (a : Nat) (b : Byte) : (s.writeByte a b).prng = s.prng := by
  obtain ⟨m, h⟩ := writeByte_eq s a b; rw [h]; rfl
@[simp] theorem writeByte_acc (s : State) (a : Nat) (b : Byte) : (s.writeByte a b).acc = s.acc := by
  obtain ⟨m, h⟩ := writeByte_eq s a b; rw [h]; rfl
@[simp] theorem writeByte_key (s : State) (a : Nat) (b : Byte) : (s.writeByte a b).key = s.key := by
  obtain ⟨m, h⟩ := writeByte_eq s a b; rw [h]; rfl
@[simp] theorem writeByte_disp (s : State) (a : Nat) (b : Byte) : (s.writeByte a b).disp = s.disp := by
  obtain ⟨m, h⟩ := writeByte_eq s a b; rw [h]; rfl
@[simp] theorem writeByte_reg (s : State) (a : Nat) (b : Byte) (x : RegId) : (s.writeByte a b).reg x = s.reg x := by
  simp [reg]
@[simp] theorem writeByte_ea (s : State) (a : Nat) (b : Byte) (k : Nat) : (s.writeByte a b).ea k = s.ea k := by
  simp [ea]
@[simp] theorem writeBytes_cfg (s : State) (a : Nat) (bs : List Byte) : (s.writeBytes a bs).cfg = s.cfg := by
  obtain ⟨m, h⟩ := writeBytes_eq s a bs; rw [h]; rfl
@[simp] theorem writeBytes_v (s : State) (a : Nat) (bs : List Byte) : (s.writeBytes a bs).v = s.v := by
  obtain ⟨m, h⟩ := writeBytes_eq s a bs; rw [h]; rfl
@[simp] theorem writeBytes_i (s : State) (a : Nat) (bs : List Byte) : (s.writeBytes a bs).i = s.i := by
  obtain ⟨m, h⟩ := writeBytes_eq s a bs; rw [h]; rfl
@[simp] theorem writeBytes_pc (s : State) (a : Nat) (bs : List Byte) : (s.writeBytes a bs).pc = s.pc := by
  obtain ⟨m, h⟩ := writeBytes_eq s a bs; rw [h]; rfl
@[simp] theorem writeBytes_sp (s : State) (a : Nat) (bs : List Byte) : (s.writeBytes a bs).sp = s.sp := by
  obtain ⟨m, h⟩ := writeBytes_eq s a bs; rw [h]; rfl
@[simp] theorem writeBytes_stack (s : State) (a : Nat) (bs : List Byte) : (s.writeBytes a bs).stack = s.stack := by
  obtain ⟨m, h⟩ := writeBytes_eq s a bs; rw [h]; rfl
@[simp] theorem writeBytes_dt (s : State) (a : Nat) (bs : List Byte) : (s.writeBytes a bs).dt = s.dt := by
  obtain ⟨m, h⟩ := writeBytes_eq s a bs; rw [h]; rfl
@[simp] theorem writeBytes_st (s : State) (a : Nat) (bs : List Byte) : (s.writeBytes a bs).st = s.st := by
  obtain ⟨m, h⟩ := writeBytes_eq s a bs; rw [h]; rfl
@[simp] theorem writeBytes_vblank (s : State) (a : Nat) (bs : List Byte) : (s.writeBytes a bs).vblank = s.vblank := by
  obtain ⟨m, h⟩ := writeBytes_eq s a bs; rw [h]; rfl
@[simp] theorem writeBytes_prng (s : State) (a : Nat) (bs : List Byte) : (s.writeBytes a bs).prng = s.prng := by
  obtain ⟨m, h⟩ := writeBytes_eq s a bs; rw [h]; rfl
@[simp] theorem writeBytes_acc (s : State) (a : Nat) (bs : List Byte) : (s.writeBytes a bs).acc = s.acc := by
  obtain ⟨m, h⟩ := writeBytes_eq s a bs; rw [h]; rfl
@[simp] theorem writeBytes_key (s : State) (a : Nat) (bs : List Byte) : (s.writeBytes a bs).key = s.key := by
  obtain ⟨m, h⟩ := writeBytes_eq s a bs; rw [h]; rfl
@[simp] theorem writeBytes_disp (s : State) (a : Nat) (bs : List Byte) : (s.writeBytes a bs).disp = s.disp := by
  obtain ⟨m, h⟩ := writeBytes_eq s a bs; rw [h]; rfl
@[simp] theorem writeBytes_reg (s : State) (a : Nat) (bs : List Byte) (x : RegId) : (s.writeBytes a bs).reg x = s.reg x := by
  simp [reg]
@[simp] theorem writeBytes_ea (s : State) (a : Nat) (bs : List Byte) (k : Nat) : (s.writeBytes a bs).ea k = s.ea k := by
  simp [ea]

theorem writeByte_memory_wf {s : State} (h : Memory.wf s.cfg s.mem) (a : Nat) (b : Byte) :
    Memory.wf s.cfg (s.writeByte a b).mem := by
  unfold writeByte
  split
  · exact Memory.set_wf h ‹_›
  · exact h

/-- Every run of byte writes keeps the canonical form. -/
theorem writeBytes_memory_wf {s : State} (h : Memory.wf s.cfg s.mem) (a : Nat) (bs : List Byte) :
    Memory.wf s.cfg (s.writeBytes a bs).mem := by
  induction bs generalizing s a with
  | nil => exact h
  | cons b bs ih =>
    have := ih (s := s.writeByte a b) (by simpa using writeByte_memory_wf h a b) (a + 1)
    simpa [writeBytes] using this

/-- The reading of every byte after a run of writes: the written bytes from `a` up, those below MEM_SIZE,
and the old bytes elsewhere. -/
theorem readByte_writeBytes (s : State) (a c : Nat) (bs : List Byte) :
    (s.writeBytes a bs).readByte c =
      if a ≤ c ∧ c < a + bs.length ∧ c < s.cfg.memSize then bs[c - a]? else s.readByte c := by
  induction bs generalizing s a with
  | nil => simp [writeBytes]; intros; omega
  | cons b bs ih =>
    rw [writeBytes, ih, readByte_writeByte, writeByte_cfg]
    by_cases hc : c = a
    · subst hc
      rw [if_neg (by omega)]
      by_cases hm : c < s.cfg.memSize <;> simp [hm]
    · by_cases h : a + 1 ≤ c ∧ c < a + 1 + bs.length ∧ c < s.cfg.memSize
      · rw [if_pos h, if_pos ⟨by omega, by simp only [List.length_cons]; omega, h.2.2⟩]
        rw [show c - a = (c - (a + 1)) + 1 by omega]; simp
      · rw [if_neg h, if_neg (by omega), if_neg (by simp only [List.length_cons]; omega)]

/-- A byte outside a run of writes reads as before. -/
theorem readByte_writeBytes_outside (s : State) {a c : Nat} {bs : List Byte}
    (h : c < a ∨ a + bs.length ≤ c) : (s.writeBytes a bs).readByte c = s.readByte c := by
  rw [readByte_writeBytes, if_neg (by omega)]

end State

end Sys2Proof.Machine
end

