-- ==== Sys2Proof/Laws/Ops.lean ====
section
/-! SUPPORT. What each shared operation and operand form does, said once: its value as arithmetic, or the
parts it keeps and writes. -/

namespace Sys2Proof.Machine

/-! ## Operand forms as arithmetic -/

@[simp] theorem zextAddr_toNat (nnn : BitVec 12) : (zextAddr nnn).toNat = nnn.toNat := by
  simp [zextAddr]; omega

@[simp] theorem zextByte_toNat (b : Byte) : (zextByte b).toNat = b.toNat := by
  simp [zextByte]; omega

theorem lowNibble_val (b : Byte) : (lowNibble b).val = b.toNat % 16 := by simp [lowNibble]

theorem topNibble_val (nnn : BitVec 12) : (topNibble nnn).val = nnn.toNat / 256 := by
  simp [topNibble, Nat.shiftRight_eq_div_pow]; omega

theorem glyphAddr_toNat (b : Byte) : (glyphAddr b).toNat = 0x050 + 5 * (b.toNat % 16) := by
  simp [glyphAddr, fontBase, lowNibble_val]; omega

theorem keyByte_toNat (k : KeyId) : (keyByte k).toNat = k.val := by simp [keyByte]; omega

/-- LD Vx,K's key: one that is down, with none below it down. -/
theorem leastKey_eq_some {s : State} {k : KeyId} :
    s.leastKey = some k ↔ s.key[k] = true ∧ ∀ j : KeyId, j < k → s.key[j] = false := by
  unfold State.leastKey
  rw [List.find?_eq_some_iff_getElem]
  constructor
  · rintro ⟨hk, n, hn, hnk, hlt⟩
    refine ⟨hk, fun j hj => ?_⟩
    have hkn : k.val = n := by rw [← hnk]; simp
    have := hlt j.val (by have := Fin.lt_def.1 hj; omega)
    simpa using this
  · rintro ⟨hk, hlt⟩
    refine ⟨hk, k.val, by simp, by simp, fun j hj => ?_⟩
    have := hlt ⟨j, by omega⟩ hj
    simpa using this

theorem leastKey_eq_none {s : State} : s.leastKey = none ↔ ∀ k : KeyId, s.key[k] = false := by
  unfold State.leastKey
  simp [List.find?_eq_none]

/-- A bulk transfer moves a byte for each register up to X whose address is in memory (R175). -/
theorem lt_transferCount {s : State} {x : RegId} {k : Nat} :
    k < s.transferCount x ↔ k ≤ x.val ∧ s.ea k < s.cfg.memSize := by
  unfold State.transferCount State.ea
  split <;> omega

theorem transferCount_le (s : State) (x : RegId) : s.transferCount x ≤ 16 := by
  unfold State.transferCount
  split <;> omega

/-! ## Flags as numbers -/

@[simp] theorem flagByte_toNat (c : Bool) : (flagByte c).toNat = if c then 1 else 0 := by
  cases c <;> rfl

theorem carryFlag_toNat (a b : Byte) :
    (carryFlag a b).toNat = if 255 < a.toNat + b.toNat then 1 else 0 := by simp [carryFlag]

theorem aboveFlag_toNat (a b : Byte) : (aboveFlag a b).toNat = if a.toNat > b.toNat then 1 else 0 := by
  simp [aboveFlag]

theorem shrFlag_toNat (a : Byte) : (shrFlag a).toNat = a.toNat % 2 := by revert a; decide

theorem shlFlag_toNat (a : Byte) : (shlFlag a).toNat = a.toNat / 128 := by revert a; decide

/-! ## The pseudo-random generator -/

/-- The default PRNG_NEXT is linear over GF(2). -/
theorem xorshift_xor (p q : BitVec 32) : xorshift (p ^^^ q) = xorshift p ^^^ xorshift q := by
  have b : ∀ k, prngByte (p ^^^ q) k = prngByte p k ^^^ prngByte q k := fun k => by
    simp [prngByte, BitVec.extractLsb'_xor]
  have cat : ∀ d d' c c' b b' a a' : Byte, ((d ++ c ++ b ++ a : BitVec 32) ^^^ (d' ++ c' ++ b' ++ a')) =
      (d ^^^ d') ++ (c ^^^ c') ++ (b ^^^ b') ++ (a ^^^ a') := fun d d' c c' b b' a a' => by
    rw [← BitVec.xor_append, ← BitVec.xor_append, ← BitVec.xor_append]
  simp only [xorshift, b, BitVec.shiftLeft_xor_distrib, BitVec.ushiftRight_xor_distrib]
  rw [cat]
  congr 3
  generalize prngByte p 0 <<< 4 <<< 1 = p1, prngByte q 0 <<< 4 <<< 1 = q1, prngByte p 0 <<< 4 = p2,
    prngByte q 0 <<< 4 = q2, prngByte p 0 <<< 1 = p3, prngByte q 0 <<< 1 = q3
  ac_rfl

@[simp] theorem xorColumns_zero (column : Nat → BitVec 32) (n : Nat) : xorColumns column 0 n = 0 := by
  induction n with
  | zero => rfl
  | succ n ih => simpa [xorColumns] using ih

/-- So is every function given by its columns. -/
theorem xorColumns_xor (column : Nat → BitVec 32) (p q : BitVec 32) (n : Nat) :
    xorColumns column (p ^^^ q) n = xorColumns column p n ^^^ xorColumns column q n := by
  induction n with
  | zero => simp [xorColumns]
  | succ n ih =>
    have bit : (if (p ^^^ q).getLsbD n then column n else 0) =
        (if p.getLsbD n then column n else 0) ^^^ (if q.getLsbD n then column n else 0) := by
      cases hp : p.getLsbD n <;> cases hq : q.getLsbD n <;> simp [hp, hq]
    rw [xorColumns, xorColumns, xorColumns, ih, bit]
    ac_rfl

/-- No linear PRNG_NEXT is shut out: each is the function of its own columns. -/
theorem xorColumns_of_linear {f : BitVec 32 → BitVec 32} (hf : ∀ p q, f (p ^^^ q) = f p ^^^ f q)
    (p : BitVec 32) : xorColumns (fun j => f (BitVec.twoPow 32 j)) p 32 = f p := by
  have zero : f 0#32 = 0#32 := by simpa using hf 0 0
  have low : ∀ n, xorColumns (fun j => f (BitVec.twoPow 32 j)) p n = f ((p.setWidth n).setWidth 32) := by
    intro n
    induction n with
    | zero => rw [xorColumns, BitVec.eq_nil (p.setWidth 0)]; exact zero.symm
    | succ n ih =>
      have split : (p.setWidth (n + 1)).setWidth 32 =
          (p.setWidth n).setWidth 32 ^^^ (if p.getLsbD n then BitVec.twoPow 32 n else 0) := by
        apply BitVec.eq_of_getLsbD_eq
        intro i hi
        cases hp : p.getLsbD n <;> by_cases h : i = n <;> grind
      rw [xorColumns, ih, split, hf]
      cases p.getLsbD n <;> simp [zero]
  rw [low]; simp

/-! ## Frames -/

theorem keepsAllBut_refl (l : List Part) (s : State) : KeepsAllBut l s s := by
  intro p _; cases p <;> simp [Keeps]

theorem KeepsAllBut.mono {l l' : List Part} {s t : State} (h : KeepsAllBut l s t) (hl : l ⊆ l') :
    KeepsAllBut l' s t := fun p hp => h p fun hm => hp (hl hm)

theorem Keeps.trans {s t u : State} {p : Part} (h : Keeps s t p) (h' : Keeps t u p) : Keeps s u p := by
  cases p <;> simp_all [Keeps]

theorem KeepsAllBut.trans {l : List Part} {s t u : State} (h : KeepsAllBut l s t)
    (h' : KeepsAllBut l t u) : KeepsAllBut l s u := fun p hp => (h p hp).trans (h' p hp)

/-! ## Register writes -/

/-- The end of a flag-producing instruction: the flag in VF, the result in `v[x]` unless x is VF, other
registers kept, `pc + 2`. -/
theorem finishAlu_spec (s : State) (x : RegId) (r f : Byte) :
    (s.finishAlu x r f).reg 15 = f ∧ (x ≠ 15 → (s.finishAlu x r f).reg x = r) ∧
    KeepsRegsBut [x, 15] s (s.finishAlu x r f) ∧ (s.finishAlu x r f).pc = s.pc + 2 ∧
    KeepsAllBut [.pc, .v] s (s.finishAlu x r f) := by
  refine ⟨?_, fun hx => ?_, fun z hz => ?_, rfl, fun p hp => ?_⟩
  · simp [State.finishAlu]
  · simp [State.finishAlu, State.setReg_reg, hx]
  · simp_all [State.finishAlu, State.setReg_reg]
  · cases p <;> simp_all [Keeps, State.finishAlu]

/-- The end of a logic operation without the VF_RESET quirk. -/
theorem finishLogic_off {s : State} (h : s.cfg.quirks.vfReset = false) (x : RegId) (r : Byte) :
    s.finishLogic x r = (s.setReg x r).advance := by simp [State.finishLogic, h]

/-- The end of a logic operation with it. -/
theorem finishLogic_on {s : State} (h : s.cfg.quirks.vfReset = true) (x : RegId) (r : Byte) :
    s.finishLogic x r = s.finishAlu x r 0 := by simp [State.finishLogic, h]

/-! ## Calls and returns -/

theorem execCall_of_lt {s : State} (nnn : BitVec 12) (h : s.sp.toNat < 16) :
    execCall nnn s =
      .next (((s.setStack (s.stack.set s.sp.toNat s.pc)).setSp (s.sp + 1)).setPc (zextAddr nnn)) :=
  dif_pos h

theorem execCall_of_ge {s : State} (nnn : BitVec 12) (h : 16 ≤ s.sp.toNat) :
    execCall nnn s = .next (s.setPc 0) := dif_neg (Nat.not_lt.2 h)

theorem execRet_of_zero {s : State} (h : s.sp = 0) : execRet s = .next (s.setPc 0) := if_pos h

theorem execRet_of_succ {s : State} (k : Fin 16) (h : s.sp.toNat = k.val + 1) :
    execRet s = .next ((s.setSp (s.sp - 1)).setPc (s.stack[k] + 2)) := by
  have h0 : s.sp ≠ 0 := fun e => by simp [e] at h
  have h1 : (s.sp - 1).toNat = k.val := by rw [BitVec.toNat_sub]; simp; omega
  simp only [execRet, if_neg h0]
  rw [dif_pos (by omega)]
  simp only [h1]; rfl

theorem execRet_of_gt {s : State} (h : 16 < s.sp.toNat) : execRet s = .fault .noSuchStackEntry := by
  have h0 : s.sp ≠ 0 := fun e => by simp [e] at h
  have h1 : ¬(s.sp - 1).toNat < 16 := by rw [BitVec.toNat_sub]; simp; omega
  simp only [execRet, if_neg h0, dif_neg h1]

/-! ## CHECK and FETCH -/

/-- CHECK either leaves the state or sets `pc` to 0, by whether the word at `pc` exists. -/
theorem checkPc_cases (s : State) :
    (s.pc.toNat + 2 ≤ s.cfg.memSize ∧ s.checkPc = s) ∨
    (s.cfg.memSize < s.pc.toNat + 2 ∧ s.checkPc = s.setPc 0) := by
  unfold State.checkPc
  split
  · exact .inr ⟨‹_›, rfl⟩
  · exact .inl ⟨by omega, rfl⟩

theorem checkPc_keeps (s : State) : KeepsAllBut [.pc] s s.checkPc := by
  rcases checkPc_cases s with ⟨_, h⟩ | ⟨_, h⟩
  · rw [h]; exact keepsAllBut_refl _ s
  · rw [h]; intro p hp; cases p <;> simp_all [Keeps]

/-- After CHECK, in a memory that can hold a word, the word exists. -/
theorem checkPc_inRange {s : State} (h : 2 ≤ s.cfg.memSize) :
    s.checkPc.pc.toNat + 2 ≤ s.cfg.memSize := by
  rcases checkPc_cases s with ⟨h1, e⟩ | ⟨_, e⟩
  · rw [e]; exact h1
  · rw [e]; simpa using h

/-- FETCH reads both bytes, high byte first. -/
theorem fetch_eq {s : State} {high low : Byte} (hh : s.readByte s.pc.toNat = some high)
    (hl : s.readByte (s.pc.toNat + 1) = some low) : s.fetch = some (wordOfBytes high low) := by
  unfold State.fetch; rw [hh, hl]

theorem fetch_isSome {s : State} (h : s.pc.toNat + 2 ≤ s.cfg.memSize) : ∃ w, s.fetch = some w :=
  ⟨_, fetch_eq (State.readByte_lt (by omega)) (State.readByte_lt (by omega))⟩

/-- Everything a step can be: the model's own stop, a stall, or the decoded instruction, all on the
state CHECK leaves. -/
theorem step_cases (s : State) :
    (s.checkPc.fetch = none ∧ step s = .fault .noSuchAddress) ∨
    (∃ w, s.checkPc.fetch = some w ∧
      ((∃ e, decode w = .error e ∧ step s = .next s.checkPc) ∨
        (∃ i, decode w = .ok i ∧ step s = exec i s.checkPc))) := by
  unfold step
  cases hf : s.checkPc.fetch with
  | none => exact .inl ⟨rfl, rfl⟩
  | some w =>
    refine .inr ⟨w, rfl, ?_⟩
    dsimp only
    cases hd : decode w with
    | error e => exact .inl ⟨e, rfl, rfl⟩
    | ok i => exact .inr ⟨i, rfl, rfl⟩

/-- A step at a `pc` whose two bytes exist is decided by the word they make. -/
theorem step_of_bytes {s : State} {high low : Byte} (hh : s.readByte s.pc.toNat = some high)
    (hl : s.readByte (s.pc.toNat + 1) = some low) :
    step s = match decode (wordOfBytes high low) with
      | .ok i => exec i s
      | .error _ => .next s := by
  have hc : s.checkPc = s := by
    rcases checkPc_cases s with ⟨_, h⟩ | ⟨h, _⟩
    · exact h
    · have := (State.readByte_eq_some hl).1; omega
  unfold step
  rw [hc, fetch_eq hh hl]
  rfl

/-! ## Memory runs -/

theorem firstRegs_length (s : State) (n : Nat) : (s.firstRegs n).length = min n 16 := by
  simp [State.firstRegs]

theorem firstRegs_getElem? (s : State) {n : Nat} (k : RegId) (h : k.val < n) :
    (s.firstRegs n)[k.val]? = some (s.reg k) := by
  simp [State.firstRegs, h, State.reg]

theorem loadFirstRegs_reg (s : State) (n : Nat) (k : RegId) :
    (s.loadFirstRegs n).reg k =
      if k.val < n then (s.readByte (s.ea k.val)).getD (s.reg k) else s.reg k := by
  simp [State.loadFirstRegs]

/-! ## Drawing -/

theorem flip_disp_length (c : Canvas) (k : Nat) : (c.flip k).disp.length = c.disp.length := by
  simp [Canvas.flip]

theorem foldl_flip_length (l : List Nat) (c : Canvas) :
    (l.foldl Canvas.flip c).disp.length = c.disp.length := by
  induction l generalizing c with
  | nil => rfl
  | cons k l ih => rw [List.foldl_cons, ih, flip_disp_length]

/-- A pixel stays 0 or 1. -/
theorem flip_pixels {c : Canvas} (h : ∀ p ∈ c.disp, p = 0 ∨ p = 1) (k : Nat) :
    ∀ p ∈ (c.flip k).disp, p = 0 ∨ p = 1 := by
  intro p hp
  obtain ⟨j, hj, rfl⟩ := List.mem_iff_getElem.1 hp
  simp only [Canvas.flip, List.getElem_modify]
  have := h (c.disp[j]'(by simpa [Canvas.flip] using hj)) (List.getElem_mem _)
  split
  · rcases this with e | e <;> simp [e]
  · exact this

theorem foldl_flip_pixels (l : List Nat) {c : Canvas} (h : ∀ p ∈ c.disp, p = 0 ∨ p = 1) :
    ∀ p ∈ (l.foldl Canvas.flip c).disp, p = 0 ∨ p = 1 := by
  induction l generalizing c with
  | nil => exact h
  | cons k l ih => rw [List.foldl_cons]; exact ih (flip_pixels h k)

end Sys2Proof.Machine
end

