-- ==== Sys2Proof/Laws/Display.lean ====
section
/-! SUPPORT. What drawing does to one pixel, and when it collides, by how often a cell is flipped; and how
often a sprite flips a cell, by its bits. -/

namespace Sys2Proof.Machine

theorem flip_getElem? (c : Canvas) (k j : Nat) :
    (c.flip k).disp[j]? = if k = j then c.disp[j]?.map (· ^^^ 1) else c.disp[j]? := by
  simp [Canvas.flip, List.getElem?_modify]
  split <;> simp

/-- A pixel is flipped once for every time its cell is drawn. -/
theorem foldl_flip_getElem? (l : List Nat) {c : Canvas} {j : Nat} {a : Byte} (h : c.disp[j]? = some a) :
    (l.foldl Canvas.flip c).disp[j]? = some (if l.count j % 2 = 1 then a ^^^ 1 else a) := by
  induction l generalizing c a with
  | nil => simpa using h
  | cons k l ih =>
    rw [List.foldl_cons]
    by_cases hk : k = j
    · subst hk
      rw [ih (a := a ^^^ 1) (by rw [flip_getElem?, if_pos rfl, h]; rfl), List.count_cons_self]
      have e : a ^^^ 1 ^^^ 1 = a := by simp
      by_cases hp : l.count k % 2 = 1
      · rw [if_pos hp, if_neg (by omega), e]
      · rw [if_neg hp, if_pos (by omega)]
    · rw [ih (a := a) (by rw [flip_getElem?, if_neg hk, h]), List.count_cons_of_ne hk]

/-- Drawing cells collides when one of them is 1 at the start or is drawn twice. -/
theorem foldl_flip_hit (l : List Nat) {c : Canvas} (h : ∀ p ∈ c.disp, p = 0 ∨ p = 1) :
    (l.foldl Canvas.flip c).hit = true ↔ c.hit = true ∨
      ∃ j, j < c.disp.length ∧ (2 ≤ l.count j ∨ (1 ≤ l.count j ∧ c.disp[j]? = some 1)) := by
  induction l generalizing c with
  | nil => simp
  | cons k l ih =>
    rw [List.foldl_cons, ih (flip_pixels h k), flip_disp_length]
    have hit : (c.flip k).hit = true ↔ c.hit = true ∨ c.disp[k]? = some 1 := by simp [Canvas.flip]
    rw [hit]
    constructor
    · rintro ((h1 | h1) | ⟨j, hj, h1⟩)
      · exact .inl h1
      · have hk : k < c.disp.length := by
          by_contra hn; rw [List.getElem?_eq_none (by omega)] at h1; cases h1
        exact .inr ⟨k, hk, .inr ⟨by rw [List.count_cons_self]; omega, h1⟩⟩
      · refine .inr ⟨j, hj, ?_⟩
        by_cases hk : k = j
        · subst hk
          rw [List.count_cons_self]
          rcases h1 with h1 | ⟨h1, _⟩ <;> exact .inl (by omega)
        · rw [List.count_cons_of_ne hk]
          rwa [flip_getElem?, if_neg hk] at h1
    · rintro (h1 | ⟨j, hj, h1⟩)
      · exact .inl (.inl h1)
      · by_cases hk : k = j
        · subst hk
          rw [List.count_cons_self] at h1
          by_cases h2 : c.disp[k]? = some 1
          · exact .inl (.inr h2)
          · have h0 : c.disp[k]? = some 0 := by
              rw [List.getElem?_eq_getElem hj] at h2 ⊢
              rcases h _ (List.getElem_mem hj) with e | e
              · rw [e]
              · exact absurd (by rw [e]) h2
            refine .inr ⟨k, hj, .inr ⟨?_, by rw [flip_getElem?, if_pos rfl, h0]; rfl⟩⟩
            rcases h1 with h1 | ⟨_, h1⟩
            · omega
            · exact absurd h1 h2
        · rw [List.count_cons_of_ne hk] at h1
          refine .inr ⟨j, hj, ?_⟩
          rwa [flip_getElem?, if_neg hk]

/-! ## Which cells a sprite draws -/

theorem onAxis_eq_some {wrap : Bool} {size p q : Nat} (hq : q < size) :
    onAxis wrap size p = some q ↔ (if wrap then p % size = q else p = q) := by
  unfold onAxis
  by_cases hp : p < size
  · simp [hp, Nat.mod_eq_of_lt hp]
  · cases wrap
    · simp [hp]; omega
    · simp [hp]

theorem onAxis_lt {wrap : Bool} {size p q : Nat} (hs : 1 ≤ size) (h : onAxis wrap size p = some q) :
    q < size := by
  unfold onAxis at h
  split at h
  · cases h; assumption
  · split at h
    · cases h; exact Nat.mod_lt _ hs
    · cases h

/-- Cells of different columns or rows are different. -/
theorem cellIndex_inj {cfg : Config} {x y x' y' : Nat} (hx : x < cfg.width) (hx' : x' < cfg.width) :
    cellIndex cfg x y = cellIndex cfg x' y' ↔ x = x' ∧ y = y' := by
  unfold cellIndex
  constructor
  · intro h
    have h1 := congrArg (· % cfg.width) h
    have h2 := congrArg (· / cfg.width) h
    simp only [Nat.mul_add_mod_self_right, Nat.mod_eq_of_lt hx, Nat.mod_eq_of_lt hx'] at h1
    have hpos : 0 < cfg.width := by omega
    rw [Nat.mul_comm y, Nat.mul_comm y', Nat.mul_add_div hpos, Nat.mul_add_div hpos,
      Nat.div_eq_of_lt hx, Nat.div_eq_of_lt hx'] at h2
    exact ⟨h1, by simpa using h2⟩
  · rintro ⟨rfl, rfl⟩; rfl

theorem spriteBit_eq (b : Byte) (col : Nat) : spriteBit b col = (b.toNat / 2 ^ (7 - col) % 2 == 1) := by
  simp [spriteBit, BitVec.getLsbD, Nat.testBit_eq_decide_div_mod_eq]
  rw [Bool.eq_iff_iff]; simp

/-- How often a byte drawn on row `yy` flips the cell of (px, py). -/
theorem count_rowCells {cfg : Config} {px py : Nat} (hw : 1 ≤ cfg.width) (hx : px < cfg.width)
    (x0 yy : Nat) (b : Byte) :
    (rowCells cfg x0 yy b).count (cellIndex cfg px py) =
      (List.range 8).countP fun col =>
        spriteBit b col && decide (yy = py) &&
          decide (onAxis cfg.quirks.wrap cfg.width (x0 + col) = some px) := by
  unfold rowCells
  rw [List.count, List.countP_filterMap]
  congr 1
  funext col
  by_cases hb : spriteBit b col
  · simp only [hb, if_true, Bool.true_and]
    cases ho : onAxis cfg.quirks.wrap cfg.width (x0 + col) with
    | none => simp
    | some xx =>
      rw [Bool.eq_iff_iff]
      simp [cellIndex_inj (onAxis_lt hw ho) hx, and_comm]
  · simp [hb]

end Sys2Proof.Machine
end

