-- ==== Sys2Proof/Laws/PerInstr.lean ====
section
/-! SUPPORT. One lemma per instruction: its word selects its own row of the opcode table, (w AND mask) =
match (spec/30_encoding.md R96), and the row is in the table. -/

namespace Sys2Proof.Laws.RowSelects

/-- The instruction's row is one of the table's, and selects the instruction's word. -/
def Statement (i : Instr) : Prop := rowOf i ∈ opcodeTable ∧ (rowOf i).selects (encode i)

/-- A row is in the table because its constructor is among `oneOfEach`. -/
theorem mem_table {i j : Instr} (h : j ∈ oneOfEach) (e : rowOf i = rowOf j) : rowOf i ∈ opcodeTable :=
  e ▸ List.mem_map_of_mem h

theorem cls : Statement .cls :=
  ⟨mem_table (j := .cls) (by decide) rfl, by decide⟩

theorem ret : Statement .ret :=
  ⟨mem_table (j := .ret) (by decide) rfl, by decide⟩

theorem jp (nnn : BitVec 12) : Statement (.jp nnn) :=
  ⟨mem_table (j := (.jp 0)) (by decide) rfl, formatA_maskA _ _⟩

theorem call (nnn : BitVec 12) : Statement (.call nnn) :=
  ⟨mem_table (j := (.call 0)) (by decide) rfl, formatA_maskA _ _⟩

theorem seImm (x : RegId) (nn : Byte) : Statement (.seImm x nn) :=
  ⟨mem_table (j := (.seImm 0 0)) (by decide) rfl, formatI_maskA _ _ _⟩

theorem sneImm (x : RegId) (nn : Byte) : Statement (.sneImm x nn) :=
  ⟨mem_table (j := (.sneImm 0 0)) (by decide) rfl, formatI_maskA _ _ _⟩

theorem seReg (x y : RegId) : Statement (.seReg x y) :=
  ⟨mem_table (j := (.seReg 0 0)) (by decide) rfl, formatR_maskR _ _ _ _⟩

theorem ldImm (x : RegId) (nn : Byte) : Statement (.ldImm x nn) :=
  ⟨mem_table (j := (.ldImm 0 0)) (by decide) rfl, formatI_maskA _ _ _⟩

theorem addImm (x : RegId) (nn : Byte) : Statement (.addImm x nn) :=
  ⟨mem_table (j := (.addImm 0 0)) (by decide) rfl, formatI_maskA _ _ _⟩

theorem ldReg (x y : RegId) : Statement (.ldReg x y) :=
  ⟨mem_table (j := (.ldReg 0 0)) (by decide) rfl, formatR_maskR _ _ _ _⟩

theorem orReg (x y : RegId) : Statement (.orReg x y) :=
  ⟨mem_table (j := (.orReg 0 0)) (by decide) rfl, formatR_maskR _ _ _ _⟩

theorem andReg (x y : RegId) : Statement (.andReg x y) :=
  ⟨mem_table (j := (.andReg 0 0)) (by decide) rfl, formatR_maskR _ _ _ _⟩

theorem xorReg (x y : RegId) : Statement (.xorReg x y) :=
  ⟨mem_table (j := (.xorReg 0 0)) (by decide) rfl, formatR_maskR _ _ _ _⟩

theorem addReg (x y : RegId) : Statement (.addReg x y) :=
  ⟨mem_table (j := (.addReg 0 0)) (by decide) rfl, formatR_maskR _ _ _ _⟩

theorem subReg (x y : RegId) : Statement (.subReg x y) :=
  ⟨mem_table (j := (.subReg 0 0)) (by decide) rfl, formatR_maskR _ _ _ _⟩

theorem shr (x y : RegId) : Statement (.shr x y) :=
  ⟨mem_table (j := (.shr 0 0)) (by decide) rfl, formatR_maskR _ _ _ _⟩

theorem subn (x y : RegId) : Statement (.subn x y) :=
  ⟨mem_table (j := (.subn 0 0)) (by decide) rfl, formatR_maskR _ _ _ _⟩

theorem shl (x y : RegId) : Statement (.shl x y) :=
  ⟨mem_table (j := (.shl 0 0)) (by decide) rfl, formatR_maskR _ _ _ _⟩

theorem sneReg (x y : RegId) : Statement (.sneReg x y) :=
  ⟨mem_table (j := (.sneReg 0 0)) (by decide) rfl, formatR_maskR _ _ _ _⟩

theorem ldI (nnn : BitVec 12) : Statement (.ldI nnn) :=
  ⟨mem_table (j := (.ldI 0)) (by decide) rfl, formatA_maskA _ _⟩

theorem jpV0 (nnn : BitVec 12) : Statement (.jpV0 nnn) :=
  ⟨mem_table (j := (.jpV0 0)) (by decide) rfl, formatA_maskA _ _⟩

theorem rnd (x : RegId) (nn : Byte) : Statement (.rnd x nn) :=
  ⟨mem_table (j := (.rnd 0 0)) (by decide) rfl, formatI_maskA _ _ _⟩

theorem drw (x y : RegId) (n : Fin 16) : Statement (.drw x y n) :=
  ⟨mem_table (j := (.drw 0 0 0)) (by decide) rfl, formatR_maskA _ _ _ _⟩

theorem skp (x : RegId) : Statement (.skp x) :=
  ⟨mem_table (j := (.skp 0)) (by decide) rfl, formatI_maskX _ _ _⟩

theorem sknp (x : RegId) : Statement (.sknp x) :=
  ⟨mem_table (j := (.sknp 0)) (by decide) rfl, formatI_maskX _ _ _⟩

theorem ldVxDt (x : RegId) : Statement (.ldVxDt x) :=
  ⟨mem_table (j := (.ldVxDt 0)) (by decide) rfl, formatI_maskX _ _ _⟩

theorem ldVxK (x : RegId) : Statement (.ldVxK x) :=
  ⟨mem_table (j := (.ldVxK 0)) (by decide) rfl, formatI_maskX _ _ _⟩

theorem ldDtVx (x : RegId) : Statement (.ldDtVx x) :=
  ⟨mem_table (j := (.ldDtVx 0)) (by decide) rfl, formatI_maskX _ _ _⟩

theorem ldStVx (x : RegId) : Statement (.ldStVx x) :=
  ⟨mem_table (j := (.ldStVx 0)) (by decide) rfl, formatI_maskX _ _ _⟩

theorem addI (x : RegId) : Statement (.addI x) :=
  ⟨mem_table (j := (.addI 0)) (by decide) rfl, formatI_maskX _ _ _⟩

theorem ldF (x : RegId) : Statement (.ldF x) :=
  ⟨mem_table (j := (.ldF 0)) (by decide) rfl, formatI_maskX _ _ _⟩

theorem ldB (x : RegId) : Statement (.ldB x) :=
  ⟨mem_table (j := (.ldB 0)) (by decide) rfl, formatI_maskX _ _ _⟩

theorem storeRegs (x : RegId) : Statement (.storeRegs x) :=
  ⟨mem_table (j := (.storeRegs 0)) (by decide) rfl, formatI_maskX _ _ _⟩

theorem loadRegs (x : RegId) : Statement (.loadRegs x) :=
  ⟨mem_table (j := (.loadRegs 0)) (by decide) rfl, formatI_maskX _ _ _⟩

end Sys2Proof.Laws.RowSelects
end

