-- ==== Sys2Proof/Laws/Transactions.lean ====
section
/-! SUPPORT. How the invariant passes from one state to the next, what reset leaves in memory, and the
arithmetic of whole ticks. -/

namespace Sys2Proof.Machine

/-! ## The invariant, part by part -/

/-- A transition that keeps the configuration and the accumulator owes the other three parts. -/
theorem State.Inv.of_parts {s t : State} (h : s.Inv) (hc : t.cfg = s.cfg) (hm : Memory.wf s.cfg t.mem)
    (hd : displayLegal s.cfg t.disp) (hsp : spLegal t.sp) (ha : t.acc = s.acc) : t.Inv :=
  ⟨hc ▸ h.cfg, hc ▸ hm, hc ▸ hd, hsp, ha ▸ h.acc⟩

theorem State.Inv.setPc {s : State} (h : s.Inv) (a : Word) : (s.setPc a).Inv :=
  h.of_parts rfl h.mem h.disp h.sp rfl

theorem State.Inv.setVblank {s : State} (h : s.Inv) (n : Nat) : (s.setVblank n).Inv :=
  h.of_parts rfl h.mem h.disp h.sp rfl

theorem State.Inv.checkPc {s : State} (h : s.Inv) : s.checkPc.Inv := by
  rcases checkPc_cases s with ⟨_, e⟩ | ⟨_, e⟩ <;> rw [e]
  · exact h
  · exact h.setPc 0

theorem State.Inv.draw {s : State} (h : s.Inv) (x y : RegId) (n : Fin 16) : (s.draw x y n).Inv := by
  refine h.of_parts (by simp [State.draw]) (by simpa [State.draw] using h.mem) ?_
    (by simpa [State.draw] using h.sp) (by simp [State.draw])
  simp only [State.draw, State.advance_eq, State.setPc_disp, State.setReg_disp, State.setDisp_disp,
    State.drawSprite]
  exact ⟨by rw [foldl_flip_length]; exact h.disp.1, foldl_flip_pixels _ h.disp.2⟩

theorem State.Inv.writeBytes {s : State} (h : s.Inv) (a : Nat) (bs : List Byte) :
    (s.writeBytes a bs).Inv :=
  h.of_parts (by simp) (by simpa using State.writeBytes_memory_wf h.mem _ _) (by simpa using h.disp)
    (by simpa using h.sp) (by simp)

/-! ## Reset -/

theorem afterReset_inv {cfg : Config} (hc : cfg.wf) (p : BitVec 32) {acc : Rat}
    (ha : 0 ≤ acc ∧ acc < tickMs) (k : Vector Bool 16) : (State.afterReset cfg p acc k).Inv :=
  ⟨hc, Memory.nil_wf _, ⟨by simp [State.afterReset], fun p hp => by
    simp [State.afterReset] at hp; exact .inl hp.2⟩, by simp [State.afterReset, spLegal], ha⟩

theorem defaultConfig_wf : defaultConfig.wf := by decide

theorem resetByte_font (cfg : Config) (k : Fin 80) : resetByte cfg (0x050 + k.val) = cfg.font[k] := by
  unfold resetByte
  rw [if_neg (by omega), dif_pos (by unfold fontBase; omega)]
  simp [fontBase]

theorem resetByte_zero (cfg : Config) {a : Nat} (h0 : a ≠ 0) (h : a < 0x050 ∨ 0x0A0 ≤ a) :
    resetByte cfg a = 0 := by
  unfold resetByte
  rw [if_neg h0, dif_neg (by unfold fontBase; omega)]

/-- After reset a byte of memory reads as its reset contents. -/
theorem afterReset_readByte {cfg : Config} {a : Nat} (h : a < cfg.memSize) (p : BitVec 32) (acc : Rat)
    (k : Vector Bool 16) : (State.afterReset cfg p acc k).readByte a = some (resetByte cfg a) := by
  simp [State.readByte, State.afterReset, h, Memory.get]

/-! ## Whole ticks -/

theorem tickMs_pos : 0 < tickMs := by norm_num [tickMs]

/-- Taking the whole ticks out leaves less than one tick. -/
theorem wholeTicks_rest {q : Rat} (h : 0 ≤ q) :
    0 ≤ q - wholeTicks q * tickMs ∧ q - wholeTicks q * tickMs < tickMs := by
  have ht := tickMs_pos
  have hq : 0 ≤ q / tickMs := by positivity
  have hf : ((wholeTicks q : Nat) : Rat) = ((q / tickMs).floor : Rat) := by
    have : (0 : Int) ≤ (q / tickMs).floor := Rat.le_floor_iff.2 (by simpa using hq)
    unfold wholeTicks
    exact_mod_cast Int.toNat_of_nonneg this
  have h1 : (((q / tickMs).floor : Int) : Rat) ≤ q / tickMs := Rat.floor_le _
  have h2 : q / tickMs < (((q / tickMs).floor + 1 : Int) : Rat) := Rat.lt_floor_add_one _
  push_cast at h2
  rw [hf]
  rw [le_div_iff₀ ht] at h1
  rw [div_lt_iff₀ ht] at h2
  constructor <;> linarith

/-- The whole ticks are the only number that leaves less than one tick. -/
theorem wholeTicks_unique {q r : Rat} {n : Nat} (h : q = n * tickMs + r) (h0 : 0 ≤ r) (h1 : r < tickMs) :
    wholeTicks q = n := by
  have ht := tickMs_pos
  have : (q / tickMs).floor = n := by
    have e : q / tickMs = n + r / tickMs := by rw [h]; field_simp
    apply le_antisymm
    · have : (q / tickMs).floor < (n : Int) + 1 := by
        rw [Rat.floor_lt_iff, e]; push_cast
        have : r / tickMs < 1 := by rw [div_lt_one ht]; exact h1
        linarith
      omega
    · rw [Rat.le_floor_iff, e]; push_cast
      have : 0 ≤ r / tickMs := by positivity
      linarith
  unfold wholeTicks; rw [this]; simp

end Sys2Proof.Machine
end

