-- ==== Sys2Proof/Tests/Slice0.lean ====
section
/-! SUPPORT. The model's own tests. Expected results come from spec/95_test_vectors.md (the vector's id
stands before each test), or from the rule named; witnesses show that each statement's hypotheses are
met. -/

namespace Sys2Proof.Tests

open Sys2Proof.Machine

/-! ## Ill-formed terms are refused -/

theorem test_config_memory_too_small : ¬Config.wf { defaultConfig with memSize := 0x201 } := by decide
theorem test_config_memory_too_large : ¬Config.wf { defaultConfig with memSize := 0x10001 } := by decide
theorem test_config_no_columns : ¬Config.wf { defaultConfig with width := 0 } := by decide
theorem test_config_no_rows : ¬Config.wf { defaultConfig with height := 0 } := by decide
theorem test_config_bounds_accepted :
    Config.wf { defaultConfig with memSize := 0x202, width := 1, height := 1 } ∧
    Config.wf { defaultConfig with memSize := 0x10000 } := by decide
/-- The outcome is this refusal. -/
def refuses {σ φ : Type} (r : Host.Outcome σ φ Refusal) (why : Refusal) : Bool :=
  match r with
  | .refused w => w = why
  | _ => false

theorem test_create_refuses :
    refuses (create { defaultConfig with height := 0 } 1) .configOutOfRange := by decide
theorem test_sp_above_sixteen : ¬spLegal 17 ∧ spLegal 16 := by decide
theorem test_display_wrong_length :
    ¬displayLegal { defaultConfig with width := 2, height := 1 } [0] := by decide
theorem test_display_pixel_two :
    ¬displayLegal { defaultConfig with width := 2, height := 1 } [0, 2] := by decide
theorem test_memory_unsorted : ¬Memory.wf defaultConfig [(0x301, 1), (0x300, 1)] := by decide
theorem test_memory_repeated : ¬Memory.wf defaultConfig [(0x300, 1), (0x300, 2)] := by decide
theorem test_memory_beyond : ¬Memory.wf defaultConfig [(0x1000, 1)] := by decide
theorem test_memory_reset_contents_listed : ¬Memory.wf defaultConfig [(0x000, 0x10)] := by decide
theorem test_no_such_transaction_argument :
    refuses (State.reset.setKey 16 true) .noSuchKey ∧
    refuses (State.reset.updateTimers (.finite (-1))) .badDelta ∧
    refuses (State.reset.updateTimers .nonFinite) .badDelta := by decide +kernel

/-! ## Decoding: each row's word, written out bit by bit from the pattern of 30_encoding.md R96 -/

theorem test_decode_display_and_return :
    decode 0b0000000011100000 = .ok .cls ∧
    decode 0b0000000011101110 = .ok .ret := by decide

theorem test_decode_jumps :
    decode 0b0001001000110100 = .ok (.jp 0x234) ∧
    decode 0b0010001100000000 = .ok (.call 0x300) ∧
    decode 0b1011110000000001 = .ok (.jpV0 0xC01) := by decide

theorem test_decode_skips :
    decode 0b0011001000101010 = .ok (.seImm 2 0x2A) ∧
    decode 0b0100101110000001 = .ok (.sneImm 11 0x81) ∧
    decode 0b0101000111100000 = .ok (.seReg 1 14) ∧
    decode 0b1001011110000000 = .ok (.sneReg 7 8) ∧
    decode 0b1110110110011110 = .ok (.skp 13) ∧
    decode 0b1110000110100001 = .ok (.sknp 1) := by decide

theorem test_decode_immediates :
    decode 0b0110101001000010 = .ok (.ldImm 10 0x42) ∧
    decode 0b0111111100000001 = .ok (.addImm 15 0x01) ∧
    decode 0b1100001000001111 = .ok (.rnd 2 0x0F) := by decide

theorem test_decode_alu :
    decode 0b1000000100100000 = .ok (.ldReg 1 2) ∧
    decode 0b1000000100100001 = .ok (.orReg 1 2) ∧
    decode 0b1000000100100010 = .ok (.andReg 1 2) ∧
    decode 0b1000000100100011 = .ok (.xorReg 1 2) ∧
    decode 0b1000000100100100 = .ok (.addReg 1 2) ∧
    decode 0b1000000100100101 = .ok (.subReg 1 2) ∧
    decode 0b1000000100100110 = .ok (.shr 1 2) ∧
    decode 0b1000000100100111 = .ok (.subn 1 2) ∧
    decode 0b1000000100101110 = .ok (.shl 1 2) := by decide

theorem test_decode_index :
    decode 0b1010001011110000 = .ok (.ldI 0x2F0) ∧
    decode 0b1111010000011110 = .ok (.addI 4) ∧
    decode 0b1111001100101001 = .ok (.ldF 3) ∧
    decode 0b1111010100110011 = .ok (.ldB 5) ∧
    decode 0b1111001001010101 = .ok (.storeRegs 2) ∧
    decode 0b1111000101100101 = .ok (.loadRegs 1) := by decide

theorem test_decode_draw :
    decode 0b1101000100100101 = .ok (.drw 1 2 5) := by decide

theorem test_decode_timers_and_key_wait :
    decode 0b1111001000000111 = .ok (.ldVxDt 2) ∧
    decode 0b1111010100001010 = .ok (.ldVxK 5) ∧
    decode 0b1111001000010101 = .ok (.ldDtVx 2) ∧
    decode 0b1111001000011000 = .ok (.ldStVx 2) := by decide

/-! Unrecognised words: one of each line of the table of R98. -/

theorem test_decode_unrecognised :
    decode 0x0000 = .error .machineCall ∧
    decode 0x00E1 = .error .machineCall ∧
    decode 0x5121 = .error .skipEqual ∧
    decode 0x8128 = .error .alu ∧
    decode 0x812F = .error .alu ∧
    decode 0x9121 = .error .skipNotEqual ∧
    decode 0xE19F = .error .key ∧
    decode 0xF1FF = .error .misc := by decide

theorem test_decode_bytes_big_endian :
    decodeBytes [0xA2, 0xF0, 0x07] = .ok (.ldI 0x2F0, [0x07]) ∧
    decodeBytes [0xA2] = .error .truncated := by decide

theorem test_decode_table_word : decodeTableWord 16 0xA2F0 = some (.ldI 0x2F0) := by decide

theorem test_encode_written_out :
    encode (.addReg 1 2) = 0x8124 ∧ encode (.drw 13 1 5) = 0xDD15 ∧ encode (.ldB 5) = 0xF533 ∧
    encode (.jpV0 0xC01) = 0xBC01 := by decide

/-! ## One step -/

/-- The step after the word is placed where the machine fetches next. -/
def run (w : Nat) (s : State) : Result := step (s.withFetchWord 16 w)

/-- The outcome is a next state with this property. -/
def gives (r : Result) (p : State → Bool) : Bool :=
  match r with
  | .next t => p t
  | _ => false

theorem eq_next_of_gives {r : Result} {s : State} (h : gives r (fun t => decide (t = s)) = true) :
    r = .next s := by
  cases r <;> simp_all [gives]

/-- The reset state with these registers. -/
def regs (l : List (RegId × Byte)) : State := l.foldl (fun s p => s.setReg p.1 p.2) State.reset

/-- The state with these quirks. -/
def quirk (q : Quirks) (s : State) : State := { s with cfg := { s.cfg with quirks := q } }

/-- A machine with an 8 x 4 display, for what is slow to compute at full size. -/
def small : State :=
  State.afterReset { defaultConfig with width := 8, height := 4, memSize := 0x300 } 1 0
    (Vector.replicate 16 false)

/-! ### Control flow -/

/-- CF1 -/
theorem test_jp :
    gives (run 0x1234 State.reset)
      (fun t => t.pc = 0x234) := by decide

/-- CF5 -/
theorem test_jp_to_itself :
    gives (run 0x1000 (small.setPc 0))
      (fun t => decide (t = small.setPc 0)) := by decide

/-- CF3 -/
theorem test_jpV0_bxnn :
    gives (run 0xB300 (quirk { quirksOff with bxnn := true } (regs [(0, 0x10), (3, 0x80)])))
      (fun t => t.pc = 0x380) := by decide

/-- CF4 -/
theorem test_jpV0_no_wrap :
    gives (run 0xBFFF (regs [(0, 0xFF)]))
      (fun t => t.pc = 0x10FE) := by decide

/-- CF7 -/
theorem test_call :
    gives (run 0x2300 (State.reset.setSp 15))
      (fun t => t.stack[15] = 0x200 ∧ t.sp = 16 ∧ t.pc = 0x300) := by decide

/-- CF8 -/
theorem test_call_overflow :
    gives (run 0x2300 ((State.reset.setSp 16).setStack (Vector.replicate 16 0x111)))
      (fun t => t.pc = 0 ∧ t.sp = 16 ∧ t.stack = Vector.replicate 16 0x111) := by decide

/-- CF10 -/
theorem test_ret :
    gives (run 0x00EE ((State.reset.setSp 1).setStack (Vector.replicate 16 0x204)))
      (fun t => t.sp = 0 ∧ t.pc = 0x206 ∧ t.stack[0] = 0x204) := by decide

/-- CF9 -/
theorem test_ret_underflow :
    gives (run 0x00EE State.reset)
      (fun t => t.pc = 0 ∧ t.sp = 0) := by decide

/-- CF11 -/
theorem test_seImm_taken :
    gives (run 0x322A (regs [(2, 0x2A)]))
      (fun t => t.pc = 0x204) := by decide

/-- CF12 -/
theorem test_seImm_untaken :
    gives (run 0x322B (regs [(2, 0x2A)]))
      (fun t => t.pc = 0x202) := by decide

/-- CF13 -/
theorem test_sneImm_untaken :
    gives (run 0x422A (regs [(2, 0x2A)]))
      (fun t => t.pc = 0x202) := by decide

/-- CF14 -/
theorem test_sneImm_taken :
    gives (run 0x422B (regs [(2, 0x2A)]))
      (fun t => t.pc = 0x204) := by decide

/-- CF15 -/
theorem test_seReg_taken :
    gives (run 0x5120 (regs [(1, 7), (2, 7)]))
      (fun t => t.pc = 0x204) := by decide

/-- CF16 -/
theorem test_seReg_untaken :
    gives (run 0x5120 (regs [(1, 7), (2, 8)]))
      (fun t => t.pc = 0x202) := by decide

/-- CF17 -/
theorem test_sneReg_taken :
    gives (run 0x9120 (regs [(1, 7), (2, 8)]))
      (fun t => t.pc = 0x204) := by decide

/-- CF18 -/
theorem test_sneReg_untaken :
    gives (run 0x9120 (regs [(1, 7), (2, 7)]))
      (fun t => t.pc = 0x202) := by decide

/-- CF19 -/
theorem test_unrecognised_stalls :
    gives (run 0x5121 small)
      (fun t => decide (t = small.withFetchWord 16 0x5121)) := by decide

/-- CF22 -/
theorem test_odd_pc :
    gives (run 0x6A42 (State.reset.setPc 0x201))
      (fun t => t.reg 10 = 0x42 ∧ t.pc = 0x203) := by decide

/-- CF4, second step: CHECK forces pc to 0 and the trap word runs (60_exceptions.md R221). -/
theorem test_pc_out_of_range :
    gives (step (small.setPc 0x10FE)) (fun t => decide (t = small.setPc 0)) := by decide

/-- A key wait and a gated draw at 0x000, reached by CHECK from 0x2FF, end with pc = 0 (R220's order; log 7). -/
theorem test_stall_after_check :
    gives (run 0xF50A (small.setPc 0x2FF)) (fun t => decide (t = (small.setPc 0).withFetchWord 16 0xF50A)) ∧
    gives (run 0xD121 (quirk { quirksOff with vblank := true } (small.setPc 0x2FF))) (fun t => t.pc = 0) := by
  decide

/-! ### Load and ALU -/

/-- A27 -/
theorem test_ldImm :
    gives (run 0x6A42 State.reset)
      (fun t => t.reg 10 = 0x42 ∧ t.pc = 0x202) := by decide

/-- A25 -/
theorem test_addImm :
    gives (run 0x7103 (regs [(1, 0xFE)]))
      (fun t => t.reg 1 = 0x01 ∧ t.reg 15 = 0) := by decide

/-- A26 -/
theorem test_addImm_vf :
    gives (run 0x7F01 (regs [(15, 0xFF)]))
      (fun t => t.reg 15 = 0) := by decide

/-- A28 -/
theorem test_ldReg :
    gives (run 0x8120 (regs [(2, 9)]))
      (fun t => t.reg 1 = 9 ∧ t.reg 2 = 9) := by decide

/-- A20 -/
theorem test_or_reset :
    gives (run 0x8121 (quirk { quirksOff with vfReset := true } (regs [(1, 0x0F), (2, 0xF0), (15, 1)])))
      (fun t => t.reg 1 = 0xFF ∧ t.reg 15 = 0) := by decide

/-- A21 -/
theorem test_or_vf_destination :
    gives (run 0x8F21 (regs [(15, 1), (2, 6)]))
      (fun t => t.reg 15 = 7) := by decide

/-- A23 -/
theorem test_and :
    gives (run 0x8122 (regs [(1, 0x3C), (2, 0x0F), (15, 1)]))
      (fun t => t.reg 1 = 0x0C ∧ t.reg 15 = 1) := by decide

/-- A24 -/
theorem test_xor_reset :
    gives (run 0x8113 (quirk { quirksOff with vfReset := true } (regs [(1, 0x5A), (15, 1)])))
      (fun t => t.reg 1 = 0 ∧ t.reg 15 = 0) := by decide

/-- the example of R153 -/
theorem test_xor :
    gives (run 0x8123 (regs [(1, 0xFF), (2, 0x0F)]))
      (fun t => t.reg 1 = 0xF0) := by decide

/-- A1 -/
theorem test_add_carry :
    gives (run 0x8124 (regs [(1, 0xFF), (2, 0x01)]))
      (fun t => t.reg 1 = 0 ∧ t.reg 15 = 1) := by decide

/-- A3 -/
theorem test_add_flag_last :
    gives (run 0x8F24 (regs [(15, 0xF0), (2, 0x20)]))
      (fun t => t.reg 15 = 1) := by decide

/-- A7 -/
theorem test_sub_equal :
    gives (run 0x8125 (regs [(1, 5), (2, 5), (15, 9)]))
      (fun t => t.reg 1 = 0 ∧ t.reg 15 = 0) := by decide

/-- A8 -/
theorem test_sub_borrow :
    gives (run 0x8125 (regs [(1, 0), (2, 1)]))
      (fun t => t.reg 1 = 0xFF ∧ t.reg 15 = 0) := by decide

/-- A10 -/
theorem test_subn :
    gives (run 0x8127 (regs [(1, 0x10), (2, 0x20)]))
      (fun t => t.reg 1 = 0x10 ∧ t.reg 15 = 1) := by decide

/-- A12 -/
theorem test_subn_borrow :
    gives (run 0x8127 (regs [(1, 0x20), (2, 0x10)]))
      (fun t => t.reg 1 = 0xF0 ∧ t.reg 15 = 0) := by decide

/-- A13 -/
theorem test_shr :
    gives (run 0x8126 (regs [(1, 0xAA), (2, 0x05)]))
      (fun t => t.reg 1 = 0x02 ∧ t.reg 2 = 0x05 ∧ t.reg 15 = 1) := by decide

/-- A14 -/
theorem test_shr_quirk :
    gives (run 0x8126 (quirk { quirksOff with shift := true } (regs [(1, 0xAA), (2, 0x05)])))
      (fun t => t.reg 1 = 0x55 ∧ t.reg 15 = 0) := by decide

/-- A16 -/
theorem test_shl :
    gives (run 0x812E (regs [(1, 0x01), (2, 0x81)]))
      (fun t => t.reg 1 = 0x02 ∧ t.reg 15 = 1) := by decide

/-- A17 -/
theorem test_shl_quirk :
    gives (run 0x812E (quirk { quirksOff with shift := true } (regs [(1, 0x01), (2, 0x81)])))
      (fun t => t.reg 1 = 0x02 ∧ t.reg 15 = 0) := by decide

/-! ### Index and memory -/

/-- M1 -/
theorem test_ldI :
    gives (run 0xA2F0 State.reset)
      (fun t => t.i = 0x2F0 ∧ t.pc = 0x202) := by decide

/-- M2 -/
theorem test_addI :
    gives (run 0xF41E ((regs [(4, 0x20)]).setI 0x300))
      (fun t => t.i = 0x320) := by decide

/-- M3 -/
theorem test_addI_wraps :
    gives (run 0xF41E ((regs [(4, 1), (15, 7)]).setI 0xFFFF))
      (fun t => t.i = 0 ∧ t.reg 15 = 7) := by decide

/-- M4 -/
theorem test_ldF :
    gives (run 0xF329 (regs [(3, 0x0B)]))
      (fun t => t.i = 0x87) := by decide

/-- M5 -/
theorem test_ldF_low_nibble :
    gives (run 0xF329 (regs [(3, 0x1A)]))
      (fun t => t.i = 0x82) := by decide

/-- M8 -/
theorem test_ldB :
    gives (run 0xF533 ((regs [(5, 156)]).setI 0x300))
      (fun t => t.readByte 0x300 = some 1 ∧ t.readByte 0x301 = some 5 ∧ t.readByte 0x302 = some 6 ∧
        t.i = 0x300) := by decide

/-- M10 -/
theorem test_ldB_at_the_end :
    gives (run 0xF533 ((regs [(5, 255)]).setI 0xFFE))
      (fun t => t.readByte 0xFFE = some 2 ∧ t.readByte 0xFFF = some 5 ∧ t.readByte 0x1000 = none) := by decide

/-- M13 -/
theorem test_store_inc_x :
    gives (run 0xF255 (quirk { quirksOff with lsIncX := true } ((regs [(0, 0x11), (1, 0x22), (2, 0x33)]).setI 0x300)))
      (fun t => t.readByte 0x300 = some 0x11 ∧ t.readByte 0x302 = some 0x33 ∧ t.readByte 0x303 = some 0 ∧
        t.i = 0x302) := by decide

/-- M19 -/
theorem test_store_truncated :
    gives (run 0xF355 ((regs [(0, 1), (1, 2), (2, 3), (3, 4)]).setI 0xFFE))
      (fun t => t.readByte 0xFFE = some 1 ∧ t.readByte 0xFFF = some 2 ∧ t.i = 0x1000) := by decide

/-- M16 -/
theorem test_load :
    gives (run 0xF165 (((regs [(2, 9)]).setI 0x300).writeBytes 0x300 [0xAA, 0xBB, 0xCC]))
      (fun t => t.reg 0 = 0xAA ∧ t.reg 1 = 0xBB ∧ t.reg 2 = 9 ∧ t.i = 0x302) := by decide

/-- M23 -/
theorem test_load_truncated :
    gives (run 0xF365 (((regs [(0, 9), (1, 9), (2, 9), (3, 9)]).setI 0xFFF).writeByte 0xFFF 0x77))
      (fun t => t.reg 0 = 0x77 ∧ t.reg 1 = 9 ∧ t.reg 3 = 9 ∧ t.i = 0x1000) := by decide

/-! ### Display -/

/-- V13 -/
theorem test_cls :
    gives (run 0x00E0 (((regs [(15, 1)]).setDisp (List.replicate 2048 1))))
      (fun t => t.disp = List.replicate 2048 0 ∧ t.reg 15 = 1) := by decide +kernel

/-- V1 -/
theorem test_drw_clips :
    gives (run 0xD121 (((regs [(1, 62), (2, 31)]).setI 0x300).writeByte 0x300 0xFF))
      (fun t => t.disp.findIdxs (· = 1) = [2046, 2047] ∧ t.reg 15 = 0) := by decide +kernel

/-- V2 -/
theorem test_drw_wraps :
    gives (run 0xD121 (quirk { quirksOff with wrap := true } (((regs [(1, 62), (2, 31)]).setI 0x300).writeByte 0x300 0xFF)))
      (fun t => t.disp.findIdxs (· = 1) = [1984, 1985, 1986, 1987, 1988, 1989, 2046, 2047] ∧ t.reg 15 = 0) := by decide +kernel

/-- V11's second draw: 0x60 over the image 0xC0 collides in column 1, on an 8 x 4 display. -/
theorem test_drw_collides :
    gives (run 0xD121 (((small.setI 0x280).writeByte 0x280 0x60).setDisp ([1, 1] ++ List.replicate 30 0)))
      (fun t => t.disp.findIdxs (· = 1) = [0, 2] ∧ t.reg 15 = 1 ∧ t.pc = 0x202) := by decide

/-- V7: the gate stalls; V8: it takes one unit. -/
theorem test_drw_gate :
    gives (run 0xD121 (quirk { quirksOff with vblank := true } small)) (fun t => t.pc = 0x200) ∧
    gives (run 0xD121 ((quirk { quirksOff with vblank := true } small).setVblank 2))
      (fun t => t.pc = 0x202 ∧ t.vblank = 1) := by decide

/-! ### Timers, keys, random -/

/-- K1 -/
theorem test_skp_down :
    gives (run 0xE19E ((State.reset.setKeys ((Vector.replicate 16 false).set 10 true)).setReg 1 0x0A))
      (fun t => t.pc = 0x204) := by decide

/-- K3 -/
theorem test_skp_low_nibble :
    gives (run 0xE19E ((State.reset.setKeys ((Vector.replicate 16 false).set 10 true)).setReg 1 0x1A))
      (fun t => t.pc = 0x204) := by decide

/-- K4 -/
theorem test_sknp_down :
    gives (run 0xE1A1 ((State.reset.setKeys ((Vector.replicate 16 false).set 10 true)).setReg 1 0x0A))
      (fun t => t.pc = 0x202) := by decide

/-- K5 -/
theorem test_sknp_up :
    gives (run 0xE1A1 (regs [(1, 0x0A)]))
      (fun t => t.pc = 0x204) := by decide

/-- K6 -/
theorem test_ldVxK_waits :
    gives (run 0xF50A State.reset)
      (fun t => t.pc = 0x200 ∧ t.reg 5 = 0) := by decide

/-- K7 -/
theorem test_ldVxK_lowest :
    gives (run 0xF50A (State.reset.setKeys (((Vector.replicate 16 false).set 7 true).set 3 true)))
      (fun t => t.reg 5 = 3 ∧ t.pc = 0x202) := by decide

/-- K8 -/
theorem test_ldVxDt :
    gives (run 0xF207 (State.reset.setDt 0x3C))
      (fun t => t.reg 2 = 0x3C) := by decide

/-- K9 -/
theorem test_ldDtVx :
    gives (run 0xF215 (regs [(2, 0x3C)]))
      (fun t => t.dt = 0x3C ∧ t.st = 0) := by decide

/-- K10 -/
theorem test_ldStVx :
    gives (run 0xF218 (regs [(2, 5)]))
      (fun t => t.st = 5 ∧ t.dt = 0) := by decide

/-- K12 -/
theorem test_rnd :
    gives (run 0xC20F (State.reset.setPrng 0x33000000))
      (fun t => t.prng = 0x2A330000 ∧ t.reg 2 = 0x0A) := by decide

/-- K15 -/
theorem test_rnd_default_recurrence :
    gives (run 0xC1FF (State.reset.setPrng 0x12345678))
      (fun t => t.prng = 0x13123456 ∧ t.reg 1 = 0x13) := by decide

/-- K13: the default PRNG's first sixteen outputs from seed 1. -/
theorem test_prng_outputs :
    (List.range 16).map (fun k => prngOutput (Nat.iterate (prngNext .standard) (k + 1) 1)) =
      [0x33, 0x2A, 0x3F, 0x20, 0x35, 0xB1, 0xB8, 0x84, 0x69, 0xBE, 0xA9, 0xB1, 0xE2, 0x71, 0x02, 0xE0] := by
  decide +kernel

/-- A function given by its columns, on a state of three bits (90_conflicts.md C3: linear). -/
theorem test_prng_columns :
    xorColumns (fun j => if j = 31 then 0x80000001 else 3) 0x80000011 32 = 0x80000001 := by decide

/-! ## Host transactions -/

/-- T2 -/
theorem test_update_timers_one_second :
    gives (((State.reset.setDt 100).setSt 5).updateTimers (.finite 1000))
      (fun t => t.dt = 40 ∧ t.st = 0 ∧ t.vblank = 60 ∧ t.acc = 0) := by decide +kernel

/-- T3, second call: 16 ms have accumulated. -/
theorem test_update_timers_keeps_the_fraction :
    gives (((State.reset.setDt 2).setAcc 16).updateTimers (.finite 1))
      (fun t => t.dt = 1 ∧ t.vblank = 1 ∧ t.acc = 1 / 3) := by decide +kernel

/-- T4 -/
theorem test_tick_floors :
    ((((State.reset.setDt 255).setSt 255).tick 300).dt, (State.reset.tick 300).vblank) = (0, 300) := by
  decide

/-- T5 -/
theorem test_reset_keeps_prng_and_keys :
    gives (((regs [(3, 9)]).setPrng 0xB135203F).transact .reset)
      (fun t => t.prng = 0xB135203F ∧ t.reg 3 = 0 ∧ t.pc = 0x200) := by decide

/-- T6, the load. -/
theorem test_load_rom :
    gives (State.reset.transact (.loadRom [0xA2, 0xF0]))
      (fun t => t.readByte 0x200 = some 0xA2 ∧ t.readByte 0x201 = some 0xF0 ∧ t.pc = 0x200) := by decide

/-- T7: nothing loaded, the first step stalls. -/
theorem test_empty_machine_stalls : gives (step State.reset) (fun t => t.pc = 0x200 ∧ t.mem = []) := by
  decide

/-- The trap word, and glyph A of the font at 0x082 (20_memory.md R65, R66; program P3). -/
theorem test_reset_memory :
    State.reset.readByte 0x000 = some 0x10 ∧ State.reset.readByte 0x001 = some 0x00 ∧
    (List.range 5).map (fun k => State.reset.readByte (0x082 + k)) =
      [some 0xF0, some 0x90, some 0xF0, some 0x90, some 0x90] ∧
    State.reset.readByte 0x0A0 = some 0 := by decide

/-- The quirk bitset's numbering (10_state.md R34). -/
theorem test_quirk_bits :
    quirkBits { quirksOff with shift := true } = 1 ∧ quirkBits { quirksOff with lsNoInc := true } = 4 ∧
    quirkBits { quirksOff with vfReset := true } = 64 := by decide

/-- A write of the byte an address reads as anyway leaves no cell behind. -/
theorem test_memory_canonical :
    ((State.reset.writeByte 0x300 7).writeByte 0x300 0).mem = [] ∧
    ((State.reset.writeByte 0x301 7).writeByte 0x300 8).mem = [(0x300, 8), (0x301, 7)] := by decide

/-- Program P3's first two lines and P2's data line, as 95_test_vectors.md assembles them. -/
theorem test_assemble :
    assemble [.instr .LD [.reg 10, .byte 0x0A], .instr .LD [.F, .reg 10], .db [0, 0]] =
      some [0x6A, 0x0A, 0xFA, 0x29, 0, 0] := by decide

/-! ## Witnesses: each statement's hypotheses hold somewhere, each clause of a range at its bounds -/

theorem small_inv : small.Inv :=
  afterReset_inv (by decide) _ ⟨le_refl _, tickMs_pos⟩ _

/-- `small` with its program counter past the last word. -/
def beyond : State := small.setPc 0x2FF

theorem beyond_inv : beyond.Inv := small_inv.setPc _

theorem small_sp_inv {n : Byte} (h : spLegal n) : (small.setSp n).Inv :=
  small_inv.of_parts rfl small_inv.mem small_inv.disp h rfl

theorem witness_EncodeOfDecodeIsTheWord :
    decode 0x00E0 = .ok .cls := by decide

theorem witness_UnrecognisedWordsAreTheListedOnes :
    decode 0x0FFF = .error .machineCall ∧ decode 0x5FFF = .error .skipEqual ∧
    decode 0x800D = .error .alu ∧ decode 0x9001 = .error .skipNotEqual ∧ decode 0xEFFF = .error .key ∧
    decode 0xF000 = .error .misc := by decide

theorem witness_WordsSelectAtMostOneRow :
    rowOf (.jp 0) ∈ opcodeTable ∧ (rowOf (.jp 0)).selects 0x1FFF := by decide

theorem witness_StepRunsTheDecodedInstruction :
    let s := small.withFetchWord 16 0x1234
    s.readByte s.pc.toNat = some 0x12 ∧ s.readByte (s.pc.toNat + 1) = some 0x34 ∧
      decode ((0x12 : Byte) ++ (0x34 : Byte)) = .ok (.jp 0x234) := by decide

theorem witness_StalledStepStallsAgain :
    small.readByte small.pc.toNat = some 0 ∧ small.readByte (small.pc.toNat + 1) = some 0 ∧
    decode ((0 : Byte) ++ (0 : Byte)) = .error .machineCall := by decide

theorem witness_StalledStepStallsAgain_key :
    let s := small.withFetchWord 16 0xF50A
    s.readByte s.pc.toNat = some 0xF5 ∧ s.readByte (s.pc.toNat + 1) = some 0x0A ∧
      decode ((0xF5 : Byte) ++ (0x0A : Byte)) = .ok (.ldVxK 5) ∧ ∀ k : KeyId, s.key[k] = false := by decide

theorem witness_StalledStepStallsAgain_draw :
    let s := (quirk { quirksOff with vblank := true } small).withFetchWord 16 0xD125
    s.readByte s.pc.toNat = some 0xD1 ∧ s.readByte (s.pc.toNat + 1) = some 0x25 ∧
      decode ((0xD1 : Byte) ++ (0x25 : Byte)) = .ok (.drw 1 2 5) ∧ s.cfg.quirks.vblank = true ∧ s.vblank = 0 := by decide

theorem witness_PcOutOfRangeGoesToTheFaultAddress :
    beyond.Inv ∧ beyond.cfg.memSize - 2 < beyond.pc.toNat ∧ beyond.readByte 0 = some 0x10 ∧
    beyond.readByte 1 = some 0x00 := ⟨beyond_inv, by decide⟩

theorem witness_FetchIsBigEndianAndNeverOutsideMemory :
    (small.setPc 0x2FE).pc.toNat ≤ small.cfg.memSize - 2 ∧ 2 ≤ small.cfg.memSize ∧ beyond.Inv := ⟨by decide, by decide, beyond_inv⟩

theorem witness_FaultOnlySetsPcToZero :
    beyond.Inv ∧ beyond.readByte 0 = some 0x10 ∧ beyond.readByte 1 = some 0x00 ∧
    decode ((0x10 : Byte) ++ (0x00 : Byte)) = .ok (.jp 0) ∧ beyond.sp = 0 ∧ beyond.cfg.memSize - 2 < beyond.pc.toNat := ⟨beyond_inv, by decide⟩

theorem witness_FaultOnlySetsPcToZero_overflow :
    (small.setSp 16).Inv ∧ 16 ≤ (small.setSp 16).sp.toNat := ⟨small_sp_inv (by decide), by decide⟩

theorem witness_EveryStepAnswersANextState :
    beyond.Inv ∧ (small.setSp 16).Inv := ⟨beyond_inv, small_sp_inv (by decide)⟩

theorem witness_HaltedMachinesAreTheListedOnes :
    small.readByte small.pc.toNat = some 0 ∧ small.readByte (small.pc.toNat + 1) = some 0 ∧
    (small.setPc 0).readByte 0 = some 0x10 ∧ (small.setPc 0).readByte 1 = some 0x00 ∧
    Halted small ∧ Halted (small.setPc 0) := 
  ⟨by decide, by decide, by decide, by decide, eq_next_of_gives (by decide), eq_next_of_gives (by decide)⟩

/-- The other clauses: a JP V0 to itself, a CALL and a RET at 0x000 that fault, are halted; the same CALL and
RET elsewhere, and a JP elsewhere, are not. -/
theorem witness_HaltedMachinesAreTheListedOnes_clauses :
    let stays (w : Nat) (s : State) := gives (run w s) (fun t => decide (t = s.withFetchWord 16 w))
    stays 0xB200 small ∧ stays 0x1200 small ∧ ¬stays 0x1202 small ∧
    stays 0x2300 ((small.setSp 16).setPc 0) ∧ ¬stays 0x2300 (small.setSp 16) ∧
    stays 0x00EE (small.setPc 0) ∧ ¬stays 0x00EE small ∧ stays 0xF50A small ∧ ¬stays 0x6000 small := by
  decide

theorem witness_StepKeepsTheInvariant :
    beyond.Inv ∧ step beyond = .next (small.setPc 0) := ⟨beyond_inv, eq_next_of_gives (by decide)⟩

theorem witness_TransactionsKeepTheInvariant :
    (Block.running small).Inv ∧ (Block.running small).transact .step = .next (.running small) ∧
    (Block.created small.cfg 1).Inv ∧ (Block.created small.cfg 1).transact (.setRngSeed 2) = .next (.created small.cfg 2) := by
  refine ⟨small_inv, ?_, show Config.wf _ by decide, rfl⟩
  have h : step small = .next small := eq_next_of_gives (by decide)
  simp [Block.transact, State.transact, h, asBlock]

theorem witness_ReachableBlocksMeetTheInvariant :
    Reachable (.created small.cfg 1) := Reachable.create small.cfg 1 _ (if_pos (by decide))

/-- Every one of the 34 instructions answers a next state on one small machine. -/
theorem witness_InstructionsChangeOnlyTheirParts :
    oneOfEach.all (fun i => gives (exec i small) fun _ => true) = true := by decide

theorem witness_PcMovesOnlyAsListed :
    gives (exec (.call 0x300) (small.setSp 15)) (fun t => t.pc = 0x300) ∧
    gives (exec (.call 0x300) (small.setSp 16)) (fun t => t.pc = 0) ∧
    gives (exec .ret (small.setSp 16)) (fun t => t.pc = 2) ∧ gives (exec .ret small) (fun t => t.pc = 0) ∧
    gives (exec (.ldVxK 1) small) (fun t => decide (t = small)) := by decide

theorem witness_TimersDoNotRunByThemselves :
    gives (step (small.withFetchWord 16 0xF215)) (fun t => t.pc = 0x202) ∧
    gives small.stepFrame (fun t => t.pc = 0x200) ∧
    gives (small.transact (.pressKey 15)) (fun t => t.key[15]) := by decide

theorem witness_AluFamilyTouchesOnlyRegisters :
    Instr.shl 15 3 ∈ Claims.loadAluFamily 15 3 0xFF := by decide

theorem witness_MemoryReadsWhatWasWritten :
    0x2FF < small.cfg.memSize ∧ ¬0x300 < small.cfg.memSize := by decide

theorem witness_StoredBytesAreFetchedNext :
    (small.setI 0x202).i.toNat = (small.setI 0x202).pc.toNat + 2 ∧
    (small.setI 0x202).i.toNat + 2 ≤ small.cfg.memSize := by decide

theorem witness_JumpGoesToItsTarget :
    small.pc.toNat = (0x200 : BitVec 12).toNat := by decide

theorem witness_IndexedJumpAddsTheSelectedRegister :
    (0 : RegId).val = (if small.cfg.quirks.bxnn then (0xFFF : BitVec 12).toNat / 256 else 0) ∧
    (15 : RegId).val = (if (quirk { quirksOff with bxnn := true } small).cfg.quirks.bxnn then
      (0xFFF : BitVec 12).toNat / 256 else 0) := by decide

theorem witness_CallPushesItsOwnAddress :
    (small.setSp 15).sp.toNat < 16 ∧ 16 ≤ (small.setSp 16).sp.toNat := by decide

theorem witness_ReturnResumesAfterTheCall :
    (small.setSp 1).sp.toNat = (0 : Fin 16).val + 1 ∧ (small.setSp 16).sp.toNat = (15 : Fin 16).val + 1 ∧
    small.sp = 0 ∧ 16 < (small.setSp 17).sp.toNat := by decide

theorem witness_ReturnUndoesCall :
    ∃ t, (small.setSp 15).sp.toNat < 16 ∧ exec (.call 0x300) (small.setSp 15) = .next t ∧ t.sp = t.sp ∧
      t.stack = t.stack := ⟨_, by decide, rfl, rfl, rfl⟩

theorem witness_SkipsAdvanceByFourOrTwo :
    Claims.skipTest small (.seImm 1 0) = some true ∧ Claims.skipTest small (.seImm 1 1) = some false ∧
    Claims.skipTest small (.sneImm 1 0) = some false ∧ Claims.skipTest small (.sneImm 1 1) = some true ∧
    Claims.skipTest small (.seReg 1 2) = some true ∧ Claims.skipTest small (.sneReg 1 2) = some false ∧
    Claims.skipTest small (.skp 1) = some false ∧ Claims.skipTest small (.sknp 1) = some true := by decide

theorem witness_LogicResetsVfOnlyUnderTheQuirk :
    (Instr.xorReg 15 1, xor) ∈ Claims.logicBit 15 1 ∧ small.cfg.quirks.vfReset = false ∧
    (quirk { quirksOff with vfReset := true } small).cfg.quirks.vfReset = true ∧ (14 : RegId) ≠ 15 := ⟨by simp [Claims.logicBit], by decide⟩

theorem witness_AddSetsCarryInVf :
    (14 : RegId) ≠ 15 := by decide

theorem witness_SubtractSetsVfWhenMinuendIsAbove :
    (Instr.subn 1 2, 9, 5) ∈ [(Instr.subReg 1 2, 5, 9), (Instr.subn 1 2, 9, 5)] ∧ (1 : RegId) ≠ 15 := by decide

theorem witness_ShiftsPutTheLostBitInVf :
    0x81 = (if (small.setReg 2 0x81).cfg.quirks.shift then ((small.setReg 2 0x81).reg 1).toNat
      else ((small.setReg 2 0x81).reg 2).toNat) := by decide

theorem witness_DecimalDigitsAreStoredFromTheIndex :
    (small.setI 0x2FD).i.toNat + (2 : Fin 3).val < small.cfg.memSize ∧
    ¬(small.setI 0x2FE).i.toNat + (2 : Fin 3).val < small.cfg.memSize := by decide

theorem witness_StoreMovesRegistersToMemory :
    (15 : RegId) ≤ 15 ∧ (small.setI 0x2F0).i.toNat + (15 : RegId).val < small.cfg.memSize ∧
    Claims.bulkMoved (small.setI 0x2FF) 15 = 1 ∧ Claims.bulkMoved (small.setI 0x300) 15 = 0 := by decide

theorem witness_LoadMovesMemoryToRegisters :
    (15 : RegId) ≤ 15 ∧ (small.setI 0x2F0).i.toNat + (15 : RegId).val < small.cfg.memSize ∧
    (14 : RegId) < 15 ∧ small.cfg.memSize ≤ (small.setI 0x2F1).i.toNat + (15 : RegId).val := by decide

theorem witness_LoadAfterStoreGivesTheRegistersBack :
    ∃ t, (small.setI 0x2F0).i.toNat + (15 : RegId).val < small.cfg.memSize ∧
      exec (.storeRegs 15) (small.setI 0x2F0) = .next t ∧ (t.setI 0x2F0).mem = t.mem ∧
      (t.setI 0x2F0).cfg = t.cfg ∧ (t.setI 0x2F0).i = (small.setI 0x2F0).i :=
  ⟨_, by decide, rfl, by simp, by simp, by simp⟩

theorem witness_DrawIsGatedByTheBudget :
    small.cfg.quirks.vblank = false ∧
    (quirk { quirksOff with vblank := true } small).cfg.quirks.vblank = true ∧
    (quirk { quirksOff with vblank := true } small).vblank = 0 ∧ 0 < (small.setVblank 1).vblank := by decide

theorem witness_DrawFlipsTheSpritesPixels :
    small.Inv ∧ small.cfg.quirks.vblank = false ∧ 7 < small.cfg.width ∧ 3 < small.cfg.height ∧
    1 ≤ Claims.spriteBitsOn (small.writeByte 0 0x81) 1 2 1 7 0 := ⟨small_inv, by decide⟩

/-- The second draw of the same byte at the same place: a machine that meets every hypothesis, with a set
bit on a pixel that was 0. -/
theorem witness_DrawingTwiceRestoresTheDisplay :
    ∃ t, small.Inv ∧ exec (.drw 1 2 1) small = .next t ∧ small.cfg.quirks.vblank = false ∧
      t.cfg = small.cfg ∧ t.mem = small.mem ∧ t.i = small.i ∧ t.reg 1 = small.reg 1 ∧ t.reg 2 = small.reg 2 ∧
      1 ≤ Claims.spriteBitsOn small 1 2 1 3 0 ∧ small.disp[0 * small.cfg.width + 3]? = some 0 :=
  ⟨_, small_inv, rfl, by decide⟩

theorem witness_VblankBudgetIsAnAllowanceOfDraws :
    let s := ((quirk { quirksOff with vblank := true } small).setVblank 1).withFetchWord 16 0xD121
    s.cfg.quirks.vblank = true ∧ gives (runSteps 2 s) (fun t => t.vblank = 0) ∧ Claims.drawsIn 2 s = 1 := by decide

theorem witness_WaitKeyTakesTheLowestKeyDown :
    (∀ k : KeyId, small.key[k] = false) ∧
    (small.setKeys (Vector.replicate 16 true)).key[(0 : KeyId)] = true ∧
    (∀ j : KeyId, j < 0 → (small.setKeys (Vector.replicate 16 true)).key[j] = false) := by decide

theorem witness_RandomIsTheMaskedFourthByte :
    (small.setPrng 0).prng = 0 := by decide

theorem witness_DefaultPrngIsTheFourByteXorshift :
    small.cfg.prngRule = .standard := by decide

theorem witness_UpdateTimersCountsWholeTicks :
    small.Inv ∧ (0 : Rat) ≤ 0 ∧ (-1 / 3 : Rat) < 0 := ⟨small_inv, le_refl _, by norm_num⟩

theorem witness_UpdateTimersInPiecesIsTheSame :
    ∃ t u w, small.Inv ∧ (0 : Rat) ≤ 16 ∧ (0 : Rat) ≤ 1 ∧ small.updateTimers (.finite 16) = .next t ∧
      t.updateTimers (.finite 1) = .next u ∧ small.updateTimers (.finite (16 + 1)) = .next w :=
  ⟨small.elapse 16, (small.elapse 16).elapse 1, small.elapse (16 + 1), small_inv, by norm_num, by norm_num,
    by simp [State.updateTimers], by simp [State.updateTimers], by norm_num [State.updateTimers]⟩

theorem witness_ResetLeavesTheListedValues :
    small.cfg.wf ∧ 0x002 < small.cfg.memSize ∧ 0x2FF < small.cfg.memSize := by decide

theorem witness_OnlyResetAndSeedBeforeTheFirstReset :
    Config.wf { defaultConfig with memSize := 0x202 } ∧ ¬Config.wf { defaultConfig with memSize := 0x201 } ∧
    Transaction.step ≠ .reset ∧ ∀ n, Transaction.step ≠ .setRngSeed n := ⟨by decide, by decide, by decide, by simp⟩

theorem witness_LoadRomCopiesTheImage :
    small.cfg.wf ∧ 0xFF < min (List.replicate 0x101 (7 : Byte)).length (small.cfg.memSize - 0x200) := by decide +kernel

theorem witness_RegistersRoundTrip :
    (small.setSp 16).getRegisters.sp.toNat ≤ 16 ∧ 16 < (small.setSp 17).getRegisters.sp.toNat := by decide

theorem witness_DisplaySeedAndKeysAreSetAlone :
    (List.replicate 32 (1 : Byte)).length = small.cfg.width * small.cfg.height ∧
    (∀ p ∈ List.replicate 32 (1 : Byte), p.toNat ≤ 1) ∧
    (List.replicate 31 (1 : Byte)).length ≠ small.cfg.width * small.cfg.height ∧
    (∃ p ∈ List.replicate 32 (2 : Byte), 1 < p.toNat) ∧ 16 ≤ 16 := by decide

end Sys2Proof.Tests
end

section

namespace Sys2Proof

open Machine

/-! ## PRNG_NEXT under either rule (spec/00_scope.md R1 (c), spec/90_conflicts.md C3) -/

/-- PRNG_NEXT respects XOR: linearity over GF(2), rule by rule. -/
theorem prngNext_xor (r : PrngRule) (p q : BitVec 32) :
    prngNext r (p ^^^ q) = prngNext r p ^^^ prngNext r q := by
  cases r with
  | standard => exact xorshift_xor p q
  | other k => exact xorColumns_xor (Config.otherPrngColumn k) p q 32

/-- The all-zero state is a fixed point of PRNG_NEXT (R210 (b)), under every rule. -/
@[simp] theorem prngNext_zero (r : PrngRule) : prngNext r 0 = 0 := by
  cases r with
  | standard => rfl
  | other k => exact xorColumns_zero (Config.otherPrngColumn k) 32

/-- Settles O60: linearity of one invocation, and the fixed point, carried along the stream. -/
theorem prngIsLinearWhicheverTheRule : Obligations.PrngIsLinearWhicheverTheRule := by
  intro r n p q
  have linear : Function.Semiconj₂ (prngNext r) (· ^^^ ·) (· ^^^ ·) := prngNext_xor r
  exact ⟨linear.iterate n p q, Function.iterate_fixed (prngNext_zero r) n⟩

end Sys2Proof

end

section

namespace Sys2Proof.Machine

/-! ## What an instruction with more than one outcome can answer -/

section outcomes
variable {s t : State}

/-- CALL pushes and jumps, or faults, by whether the stack has room (spec/40_control_flow.md R123). -/
theorem execCall_next {nnn : BitVec 12} (h : execCall nnn s = .next t) :
    (∃ hsp : s.sp.toNat < 16,
      t = ((s.setStack (s.stack.set s.sp.toNat s.pc)).setSp (s.sp + 1)).setPc (zextAddr nnn)) ∨
    (16 ≤ s.sp.toNat ∧ t = s.setPc 0) := by
  rcases Nat.lt_or_ge s.sp.toNat 16 with hsp | hsp
  · rw [execCall_of_lt nnn hsp] at h; cases h
    exact .inl ⟨hsp, rfl⟩
  · rw [execCall_of_ge nnn hsp] at h; cases h
    exact .inr ⟨hsp, rfl⟩

/-- RET pops, or faults on an empty stack; with `sp` above 16 it answers no state (R122, log 8). -/
theorem execRet_next (h : execRet s = .next t) :
    (∃ k : Fin 16, s.sp.toNat = k.val + 1 ∧ t = (s.setSp (s.sp - 1)).setPc (s.stack[k] + 2)) ∨
    (s.sp = 0 ∧ t = s.setPc 0) := by
  by_cases h0 : s.sp = 0
  · rw [execRet_of_zero h0] at h; cases h
    exact .inr ⟨h0, rfl⟩
  have hpos : s.sp.toNat ≠ 0 := fun e => h0 (BitVec.eq_of_toNat_eq e)
  rcases Nat.lt_or_ge 16 s.sp.toNat with hsp | hsp
  · rw [execRet_of_gt hsp] at h; cases h
  · obtain ⟨k, hk⟩ : ∃ k : Fin 16, s.sp.toNat = k.val + 1 :=
      ⟨⟨s.sp.toNat - 1, by omega⟩, by simp only; omega⟩
    rw [execRet_of_succ k hk] at h; cases h
    exact .inl ⟨k, hk, rfl⟩

/-- DRW stalls behind an empty budget, or draws, and under the VBLANK quirk a draw takes one unit (R191,
R192). -/
theorem execDrw_next {x y : RegId} {n : Fin 16} (h : execDrw x y n s = .next t) :
    (t = s ∧ s.cfg.quirks.vblank = true ∧ s.vblank = 0) ∨
    ((s.cfg.quirks.vblank = true → s.vblank ≠ 0) ∧
      t = (s.setVblank (if s.cfg.quirks.vblank then s.vblank - 1 else s.vblank)).draw x y n) := by
  unfold execDrw at h
  split at h
  next hq =>
    split at h
    next hb => cases h; exact .inl ⟨rfl, hq, hb⟩
    next hb => cases h; exact .inr ⟨fun _ => hb, by rw [if_pos hq]⟩
  next hq => cases h; exact .inr ⟨fun e => absurd e hq, by rw [if_neg hq]; rfl⟩

/-- LD Vx,K stalls while no key is down, or takes the lowest one down (R206). -/
theorem execLdVxK_next {x : RegId} (h : execLdVxK x s = .next t) :
    (t = s ∧ ∀ k : KeyId, s.key[k] = false) ∨
    ∃ k, s.leastKey = some k ∧ t = (s.setReg x (keyByte k)).setPc (s.pc + 2) := by
  unfold execLdVxK at h
  split at h
  next hk => cases h; exact .inl ⟨rfl, leastKey_eq_none.1 hk⟩
  next k hk => cases h; exact .inr ⟨k, hk, rfl⟩

/-- A logic operation ends with a write of registers and `pc + 2`, whatever the quirk (R150). -/
theorem finishLogic_next {x : RegId} {r : Byte} (h : (.next (s.finishLogic x r) : Result) = .next t) :
    ∃ w, t = (s.setV w).setPc (s.pc + 2) := by
  obtain rfl : s.finishLogic x r = t := Host.Outcome.next.inj h
  cases hq : s.cfg.quirks.vfReset with
  | false => exact ⟨_, finishLogic_off hq x r⟩
  | true => exact ⟨_, finishLogic_on hq x r⟩

end outcomes

/-! ## Frames of the updates, and of one instruction (spec/10_state.md R22, R27 to R32, R35 to R39) -/

section frames
variable {s t u : State} {p : Part} {l : List Part}

/-- A change within `l` and then a change of one part are together a change within both. -/
theorem KeepsAllBut.cons (h : KeepsAllBut l s t) (hu : KeepsAllBut [p] t u) :
    KeepsAllBut (p :: l) s u :=
  (h.mono (List.subset_cons_self p l)).trans (hu.mono (by simp))

theorem setV_keeps (s : State) (w : Vector Byte 16) : KeepsAllBut [.v] s (s.setV w) := by
  intro p hp; cases p <;> simp_all [Keeps]

theorem setReg_keeps (s : State) (x : RegId) (b : Byte) : KeepsAllBut [.v] s (s.setReg x b) :=
  setV_keeps s _

theorem setI_keeps (s : State) (a : Word) : KeepsAllBut [.i] s (s.setI a) := by
  intro p hp; cases p <;> simp_all [Keeps]

theorem setPc_keeps (s : State) (a : Word) : KeepsAllBut [.pc] s (s.setPc a) := by
  intro p hp; cases p <;> simp_all [Keeps]

theorem setSp_keeps (s : State) (n : Byte) : KeepsAllBut [.sp] s (s.setSp n) := by
  intro p hp; cases p <;> simp_all [Keeps]

theorem setStack_keeps (s : State) (w : Vector Word 16) : KeepsAllBut [.stack] s (s.setStack w) := by
  intro p hp; cases p <;> simp_all [Keeps]

theorem setDt_keeps (s : State) (b : Byte) : KeepsAllBut [.dt] s (s.setDt b) := by
  intro p hp; cases p <;> simp_all [Keeps]

theorem setSt_keeps (s : State) (b : Byte) : KeepsAllBut [.st] s (s.setSt b) := by
  intro p hp; cases p <;> simp_all [Keeps]

theorem setVblank_keeps (s : State) (n : Nat) : KeepsAllBut [.vblank] s (s.setVblank n) := by
  intro p hp; cases p <;> simp_all [Keeps]

theorem setPrng_keeps (s : State) (q : BitVec 32) : KeepsAllBut [.prng] s (s.setPrng q) := by
  intro p hp; cases p <;> simp_all [Keeps]

theorem setMem_keeps (s : State) (m : Memory) : KeepsAllBut [.mem] s (s.setMem m) := by
  intro p hp; cases p <;> simp_all [Keeps]

theorem setDisp_keeps (s : State) (d : List Byte) : KeepsAllBut [.disp] s (s.setDisp d) := by
  intro p hp; cases p <;> simp_all [Keeps]

theorem writeBytes_keeps (s : State) (a : Nat) (bs : List Byte) :
    KeepsAllBut [.mem] s (s.writeBytes a bs) := by
  obtain ⟨m, hm⟩ := State.writeBytes_eq s a bs
  exact hm ▸ setMem_keeps s m

theorem draw_keeps (s : State) (x y : RegId) (n : Fin 16) :
    KeepsAllBut [.pc, .v, .disp] s (s.draw x y n) :=
  ((setDisp_keeps s _).cons (setReg_keeps _ vf _)).cons (setPc_keeps _ _)

/-- What an instruction answers differs from the state it ran on in the instruction's own parts. -/
theorem exec_keepsAllBut_mayChange {i : Instr} (h : exec i s = .next t) :
    KeepsAllBut (mayChange i) s t := by
  cases i with
  | jp _ | jpV0 _ | seImm _ _ | sneImm _ _ | seReg _ _ | sneReg _ _ | skp _ | sknp _ =>
    cases h; exact setPc_keeps s _
  | call nnn =>
    rcases execCall_next h with ⟨_, rfl⟩ | ⟨_, rfl⟩
    · exact ((setStack_keeps s _).cons (setSp_keeps _ _)).cons (setPc_keeps _ _)
    · exact (setPc_keeps s 0).mono (by simp [mayChange])
  | ret =>
    rcases execRet_next h with ⟨k, _, rfl⟩ | ⟨_, rfl⟩
    · exact (setSp_keeps s _).cons (setPc_keeps _ _)
    · exact (setPc_keeps s 0).mono (by simp [mayChange])
  | ldImm _ _ | addImm _ _ | ldReg _ _ | addReg _ _ | subReg _ _ | subn _ _ | shr _ _ | shl _ _
  | ldVxDt _ =>
    cases h; exact (setV_keeps s _).cons (setPc_keeps _ _)
  | orReg x y | andReg x y | xorReg x y =>
    obtain ⟨w, rfl⟩ := finishLogic_next h
    exact (setV_keeps s w).cons (setPc_keeps _ _)
  | ldVxK x =>
    rcases execLdVxK_next h with ⟨rfl, _⟩ | ⟨k, _, rfl⟩
    · exact keepsAllBut_refl _ t
    · exact (setReg_keeps s x _).cons (setPc_keeps _ _)
  | rnd x _ => cases h; exact ((setPrng_keeps s _).cons (setReg_keeps _ x _)).cons (setPc_keeps _ _)
  | ldDtVx _ => cases h; exact (setDt_keeps s _).cons (setPc_keeps _ _)
  | ldStVx _ => cases h; exact (setSt_keeps s _).cons (setPc_keeps _ _)
  | cls => cases h; exact (setDisp_keeps s _).cons (setPc_keeps _ _)
  | drw x y n =>
    rcases execDrw_next h with ⟨rfl, _, _⟩ | ⟨_, rfl⟩
    · exact keepsAllBut_refl _ t
    · exact ((setVblank_keeps s _).mono (by simp [mayChange])).trans
        ((draw_keeps _ x y n).mono (by simp [mayChange]))
  | ldI _ | addI _ | ldF _ => cases h; exact (setI_keeps s _).cons (setPc_keeps _ _)
  | ldB _ => cases h; exact (writeBytes_keeps s _ _).cons (setPc_keeps _ _)
  | storeRegs _ =>
    cases h; exact ((writeBytes_keeps s _ _).cons (setI_keeps _ _)).cons (setPc_keeps _ _)
  | loadRegs _ =>
    cases h
    exact (((setV_keeps s _).cons (setI_keeps _ _)).cons (setPc_keeps _ _)).mono (by simp [mayChange])

end frames

/-! ## Where `pc` goes (R24) -/

/-- The unreduced sum of JP V0 fits 16 bits (R126). -/
theorem zextAddr_add_zextByte_toNat (nnn : BitVec 12) (b : Byte) :
    (zextAddr nnn + zextByte b).toNat = nnn.toNat + b.toNat := by
  rw [BitVec.toNat_add, zextAddr_toNat, zextByte_toNat]
  omega

/-- A skip moves `pc` by 2 or by 4 and does nothing else (R120). -/
theorem skipIf_cases (s : State) (c : Bool) :
    s.skipIf c = s.setPc (s.pc + 2) ∨ s.skipIf c = s.setPc (s.pc + 4) := by
  cases c with
  | false => exact .inl rfl
  | true => exact .inr rfl

/-! ## The invariant along instructions, steps and transactions (R28, R32, R39) -/

section invariant
variable {s t : State}

/-- A cleared screen is a display buffer of the machine (R39). -/
theorem zeros_displayLegal (cfg : Config) :
    displayLegal cfg (List.replicate (cfg.width * cfg.height) 0) :=
  ⟨List.length_replicate, fun _ hp => .inl (List.eq_of_mem_replicate hp)⟩

theorem State.Inv.setV (hs : s.Inv) (w : Vector Byte 16) : (s.setV w).Inv :=
  hs.of_parts rfl hs.mem hs.disp hs.sp rfl

theorem State.Inv.setI (hs : s.Inv) (a : Word) : (s.setI a).Inv :=
  hs.of_parts rfl hs.mem hs.disp hs.sp rfl

theorem State.Inv.execCall (hs : s.Inv) {nnn : BitVec 12} (h : execCall nnn s = .next t) : t.Inv := by
  rcases execCall_next h with ⟨hsp, rfl⟩ | ⟨_, rfl⟩
  · have hle : (s.sp + 1).toNat ≤ 16 := by bv_omega
    exact hs.of_parts rfl hs.mem hs.disp hle rfl
  · exact hs.setPc 0

theorem State.Inv.execRet (hs : s.Inv) (h : execRet s = .next t) : t.Inv := by
  rcases execRet_next h with ⟨k, hk, rfl⟩ | ⟨_, rfl⟩
  · have hle : (s.sp - 1).toNat ≤ 16 := by bv_omega
    exact hs.of_parts rfl hs.mem hs.disp hle rfl
  · exact hs.setPc 0

/-- An instruction keeps the invariant: only CALL and RET move `sp`, only CLS and DRW write the display,
only LD B and the store write memory, and none the configuration or the accumulator. -/
theorem State.Inv.exec (hs : s.Inv) {i : Instr} (h : exec i s = .next t) : t.Inv := by
  cases i with
  | call _ => exact hs.execCall h
  | ret => exact hs.execRet h
  | cls => cases h; exact hs.of_parts rfl hs.mem (zeros_displayLegal s.cfg) hs.sp rfl
  | drw x y n =>
    rcases execDrw_next h with ⟨rfl, _, _⟩ | ⟨_, rfl⟩
    · exact hs
    · exact (hs.setVblank _).draw x y n
  | ldB _ => cases h; exact (hs.writeBytes _ _).setPc _
  | storeRegs _ => cases h; exact ((hs.writeBytes _ _).setI _).setPc _
  | loadRegs _ => cases h; exact ((hs.setV _).setI _).setPc _
  | orReg x y | andReg x y | xorReg x y =>
    obtain ⟨w, rfl⟩ := finishLogic_next h
    exact hs.of_parts rfl hs.mem hs.disp hs.sp rfl
  | ldVxK x =>
    rcases execLdVxK_next h with ⟨rfl, _⟩ | ⟨k, _, rfl⟩
    · exact hs
    · exact hs.of_parts rfl hs.mem hs.disp hs.sp rfl
  | jp _ | jpV0 _ | seImm _ _ | sneImm _ _ | seReg _ _ | sneReg _ _ | skp _ | sknp _ | ldImm _ _
  | addImm _ _ | ldReg _ _ | addReg _ _ | subReg _ _ | subn _ _ | shr _ _ | shl _ _ | ldVxDt _
  | rnd _ _ | ldDtVx _ | ldStVx _ | ldI _ | addI _ | ldF _ =>
    cases h; exact hs.of_parts rfl hs.mem hs.disp hs.sp rfl

theorem State.Inv.step (hs : s.Inv) (h : step s = .next t) : t.Inv := by
  rcases step_cases s with ⟨_, e⟩ | ⟨w, _, ⟨_, _, e⟩ | ⟨i, _, e⟩⟩ <;> rw [e] at h
  · cases h
  · cases h; exact hs.checkPc
  · exact hs.checkPc.exec h

theorem State.Inv.runSteps {n : Nat} (hs : s.Inv) (h : runSteps n s = .next t) : t.Inv := by
  induction n generalizing s with
  | zero => cases h; exact hs
  | succ n ih =>
    unfold Machine.runSteps at h
    split at h
    next u hu => exact ih (hs.step hu) h
    next => cases h
    next => cases h

theorem State.Inv.setRegisters (hs : s.Inv) {r : Registers} (h : s.setRegisters r = .next t) :
    t.Inv := by
  unfold State.setRegisters at h
  split at h
  next hsp => cases h; exact hs.of_parts rfl hs.mem hs.disp hsp rfl
  next => cases h

theorem State.Inv.setDisplay (hs : s.Inv) {bytes : List Byte} (h : s.setDisplay bytes = .next t) :
    t.Inv := by
  unfold State.setDisplay at h
  split at h
  next hd => cases h; exact hs.of_parts rfl hs.mem hd hs.sp rfl
  next => cases h

theorem State.Inv.setKey (hs : s.Inv) {k : Nat} {down : Bool} (h : s.setKey k down = .next t) :
    t.Inv := by
  unfold State.setKey at h
  split at h
  next => cases h; exact hs.of_parts rfl hs.mem hs.disp hs.sp rfl
  next => cases h

/-- Taking the whole ticks out brings the accumulator back below one tick (R32). -/
theorem State.Inv.elapse (hs : s.Inv) {ms : Rat} (hms : 0 ≤ ms) : (s.elapse ms).Inv :=
  ⟨hs.cfg, hs.mem, hs.disp, hs.sp, wholeTicks_rest (add_nonneg hs.acc.1 hms)⟩

theorem State.Inv.updateTimers (hs : s.Inv) {delta : DeltaMs} (h : s.updateTimers delta = .next t) :
    t.Inv := by
  unfold State.updateTimers at h
  split at h
  next ms =>
    split at h
    next hms => cases h; exact hs.elapse hms
    next => cases h
  next => cases h

theorem State.Inv.transact (hs : s.Inv) {x : Transaction} (h : s.transact x = .next t) : t.Inv := by
  cases x with
  | reset => cases h; exact afterReset_inv hs.cfg _ hs.acc _
  | loadRom image =>
    obtain rfl : s.loadRom image = t := Host.Outcome.next.inj h
    exact hs.writeBytes _ _
  | setRngSeed _ => cases h; exact hs.of_parts rfl hs.mem hs.disp hs.sp rfl
  | setRegisters _ => exact hs.setRegisters h
  | setDisplay _ => exact hs.setDisplay h
  | updateTimers _ => exact hs.updateTimers h
  | step => exact hs.step h
  | stepFrame => exact hs.runSteps h
  | pressKey _ | releaseKey _ => exact hs.setKey h

/-- The first reset after creation: no key down, nothing accumulated (R51). -/
theorem firstReset_inv {cfg : Config} (hc : cfg.wf) (seed : BitVec 32) :
    (State.afterReset cfg seed 0 (Vector.replicate 16 false)).Inv :=
  afterReset_inv hc seed ⟨le_rfl, tickMs_pos⟩ _

theorem asBlock_next {r : Result} {c : Block} (h : asBlock r = .next c) :
    ∃ t, r = .next t ∧ c = .running t := by
  cases r with
  | next t => cases h; exact ⟨t, rfl, rfl⟩
  | fault _ | refused _ => cases h

theorem Block.Inv.transact {b c : Block} (hb : b.Inv) {x : Transaction} (h : b.transact x = .next c) :
    c.Inv := by
  cases b with
  | running s =>
    obtain ⟨t, ht, rfl⟩ := asBlock_next h
    exact State.Inv.transact hb ht
  | created cfg prng =>
    cases x with
    | reset => cases h; exact firstReset_inv hb prng
    | setRngSeed _ => cases h; exact hb
    | _ => cases h

theorem create_inv {cfg : Config} {seed : BitVec 32} {b : Block} (h : create cfg seed = .next b) :
    b.Inv := by
  unfold create at h
  split at h
  next hc => cases h; exact hc
  next => cases h

end invariant

end Sys2Proof.Machine

namespace Sys2Proof

open Machine

/-! ## The statements about the state (spec/10_state.md) -/

/-- Settles O16: CHECK keeps the invariant, and so does the instruction that runs after it. -/
theorem stepKeepsTheInvariant : Obligations.StepKeepsTheInvariant := fun _ _ hs h => hs.step h

/-- Settles O17: the default configuration is in range, and nothing has accumulated. -/
theorem resetMeetsTheInvariant : Obligations.ResetMeetsTheInvariant :=
  firstReset_inv defaultConfig_wf defaultSeed

/-- Settles O19, by induction on how the block was reached. -/
theorem reachableBlocksMeetTheInvariant : Obligations.ReachableBlocksMeetTheInvariant := by
  intro b hb
  induction hb with
  | create cfg seed b h => exact create_inv h
  | transact b c x _ h ih => exact ih.transact h

/-- Settles O20: each instruction is a chain of updates of its own parts. -/
theorem instructionsChangeOnlyTheirParts : Obligations.InstructionsChangeOnlyTheirParts :=
  fun _ _ _ h => exec_keepsAllBut_mayChange h

/-- Settles O21, instruction by instruction: jumps, skips and waits apart, each ends in `pc + 2`. -/
theorem pcMovesOnlyAsListed : Obligations.PcMovesOnlyAsListed := by
  intro i s t h
  cases i with
  | jp nnn => cases h; exact zextAddr_toNat nnn
  | jpV0 nnn => cases h; exact ⟨_, zextAddr_add_zextByte_toNat nnn _⟩
  | call nnn =>
    rcases execCall_next h with ⟨hsp, rfl⟩ | ⟨hsp, rfl⟩
    · exact .inl ⟨hsp, zextAddr_toNat nnn⟩
    · exact .inr ⟨hsp, rfl⟩
  | ret =>
    rcases execRet_next h with ⟨k, hk, rfl⟩ | ⟨hsp, rfl⟩
    · exact .inl ⟨k, hk, rfl⟩
    · exact .inr ⟨hsp, rfl⟩
  | seImm _ _ | sneImm _ _ | seReg _ _ | sneReg _ _ | skp _ | sknp _ =>
    cases h; exact skipIf_cases s _
  | ldVxK x =>
    rcases execLdVxK_next h with ⟨rfl, hk⟩ | ⟨k, _, rfl⟩
    · exact .inr ⟨rfl, hk⟩
    · exact .inl rfl
  | drw x y n =>
    rcases execDrw_next h with ⟨rfl, hq, hb⟩ | ⟨_, rfl⟩
    · exact .inr ⟨rfl, hq, hb⟩
    · exact .inl rfl
  | orReg x y | andReg x y | xorReg x y =>
    obtain ⟨w, rfl⟩ := finishLogic_next h
    rfl
  | ldB _ | storeRegs _ => cases h; exact congrArg (· + 2) (State.writeBytes_pc s _ _)
  | cls | ldImm _ _ | addImm _ _ | ldReg _ _ | addReg _ _ | subReg _ _ | subn _ _ | shr _ _ | shl _ _
  | ldVxDt _ | rnd _ _ | ldDtVx _ | ldStVx _ | ldI _ | addI _ | ldF _ =>
    cases h; rfl
  | loadRegs _ => cases h; simp [State.advanceI, State.loadFirstRegs]

/-- Settles O54: reset writes its values and lists no memory cell, so memory reads as its reset
contents. -/
theorem resetLeavesTheListedValues : Obligations.ResetLeavesTheListedValues := by
  intro s ⟨hsize, _⟩
  have read {a : Nat} (h : a < s.cfg.memSize) : s.doReset.readByte a = some (resetByte s.cfg a) :=
    afterReset_readByte h s.prng s.acc s.key
  refine ⟨s.doReset, rfl, fun x => ?_, rfl, rfl, rfl, fun k => ?_, rfl, rfl, rfl, rfl, ?_, ?_,
    fun k => ?_, fun a h1 ha hfont => ?_, rfl, rfl, rfl, rfl⟩
  · exact Vector.getElem_replicate x.isLt
  · exact Vector.getElem_replicate k.isLt
  · exact read (by omega)
  · rw [read (by omega), resetByte_zero s.cfg (by omega) (by omega)]
  · rw [read (by omega), resetByte_font]
  · rw [read ha, resetByte_zero s.cfg (by omega) hfont]

/-- Settles O55, clause by clause; the first reset's machine is that of `firstReset_inv`. -/
theorem onlyResetAndSeedBeforeTheFirstReset : Obligations.OnlyResetAndSeedBeforeTheFirstReset := by
  intro cfg seed
  refine ⟨fun hc => if_pos hc, fun hc => if_neg hc, fun t hreset hseed => ?_, fun n => rfl, fun hc => ?_⟩
  · cases t with
    | reset => exact absurd rfl hreset
    | setRngSeed n => exact absurd rfl (hseed n)
    | _ => rfl
  · exact ⟨_, rfl, firstReset_inv hc seed, rfl, rfl, rfl, rfl, fun k => Vector.getElem_replicate k.isLt⟩

end Sys2Proof

end

section

namespace Sys2Proof.Machine

/-! ## Bytes and words of memory (spec/20_memory.md R60 to R63, R72, R75) -/

section memory
variable {s : State}

/-- Exactly the addresses below MEM_SIZE can be read (R60, R63). -/
theorem exists_readByte_iff_lt {a : Nat} : (∃ b, s.readByte a = some b) ↔ a < s.cfg.memSize :=
  ⟨fun ⟨_, h⟩ => (State.readByte_eq_some h).1, fun h => ⟨_, State.readByte_lt h⟩⟩

/-- A word whose two bytes lie in memory passes CHECK and is fetched big-endian (R62, R221). -/
theorem checkPc_fetch_eq {high low : Byte} (hhigh : s.readByte s.pc.toNat = some high)
    (hlow : s.readByte (s.pc.toNat + 1) = some low) :
    s.checkPc.fetch = some (wordOfBytes high low) := by
  obtain ⟨hlt, _⟩ := State.readByte_eq_some hlow
  rcases checkPc_cases s with ⟨_, e⟩ | ⟨hout, _⟩
  · rw [e]; exact fetch_eq hhigh hlow
  · omega

/-- The store's run of bytes puts `v[k]` at `i + k`, for each k up to X whose address is in memory
(R175, R176). -/
theorem readByte_writeBytes_firstRegs {x k : RegId} (hk : k.val ≤ x.val) (hm : s.ea k < s.cfg.memSize) :
    (s.writeBytes (s.ea 0) (s.firstRegs (s.transferCount x))).readByte (s.ea k) = some (s.reg k) := by
  have hcount : k.val < s.transferCount x := lt_transferCount.2 ⟨hk, hm⟩
  have hlen := firstRegs_length s (s.transferCount x)
  have hea : s.ea k = s.ea 0 + k.val := rfl
  have hrun : s.ea 0 ≤ s.ea k ∧ s.ea k < s.ea 0 + (s.firstRegs (s.transferCount x)).length ∧
      s.ea k < s.cfg.memSize := by omega
  rw [State.readByte_writeBytes, if_pos hrun, hea, Nat.add_sub_cancel_left,
    firstRegs_getElem? s k hcount]

/-- LD [I],Vx completes two further on, its bytes stored: the advance of `i` leaves memory alone (R176). -/
theorem execStoreRegs_stores (s : State) (x : RegId) :
    ∃ t, execStoreRegs x s = .next t ∧ t.pc = s.pc + 2 ∧
      ∀ k : RegId, k.val ≤ x.val → s.ea k < s.cfg.memSize → t.readByte (s.ea k) = some (s.reg k) :=
  ⟨_, rfl, congrArg (· + 2) (State.writeBytes_pc s _ _), fun _ => readByte_writeBytes_firstRegs⟩

/-- `load_rom` is one run of writes from 0x200, of the bytes that fit (R75). -/
theorem loadRom_eq (s : State) (image : List Byte) :
    s.loadRom image = s.writeBytes 0x200 (image.take (s.cfg.memSize - 0x200)) := rfl

end memory

end Sys2Proof.Machine

namespace Sys2Proof

open Machine

/-! ## The statements about memory (spec/20_memory.md) -/

/-- Settles O11: both bytes of the word at `pc` exist, and `wordOfBytes` puts the first one on top; CHECK
leaves such a `pc`, as a memory in range holds a word. -/
theorem fetchIsBigEndianAndNeverOutsideMemory : Obligations.FetchIsBigEndianAndNeverOutsideMemory := by
  refine fun s => ⟨fun hpc hsize => ?_, fun hs => ?_⟩
  · obtain ⟨high, hhigh⟩ := exists_readByte_iff_lt.2 (show s.pc.toNat < s.cfg.memSize by omega)
    obtain ⟨low, hlow⟩ := exists_readByte_iff_lt.2 (show s.pc.toNat + 1 < s.cfg.memSize by omega)
    exact ⟨high, low, _, hhigh, hlow, fetch_eq hhigh hlow, wordOfBytes_toNat high low⟩
  · obtain ⟨hsize, _⟩ := hs.cfg
    exact Nat.le_sub_of_add_le (checkPc_inRange (by omega))

/-- Settles O24: the rule for a read after a write, and the frame of a run of one byte. -/
theorem memoryReadsWhatWasWritten : Obligations.MemoryReadsWhatWasWritten := fun s a b =>
  ⟨fun c => State.readByte_writeByte s a c b, writeBytes_keeps s a [b], fun _ => exists_readByte_iff_lt⟩

/-- Settles O25: the store reaches both bytes of the word at `pc + 2`, where the next step fetches. -/
theorem storedBytesAreFetchedNext : Obligations.StoredBytesAreFetchedNext := by
  intro s hi hsize
  obtain ⟨t, ht, hnext, stored⟩ := execStoreRegs_stores s 1
  have hpc : t.pc.toNat = s.pc.toNat + 2 := by bv_omega
  have hea (k : RegId) : s.ea k = t.pc.toNat + k.val := by rw [State.ea, hi, hpc]
  have read (k : RegId) (hk : k.val ≤ 1) : t.readByte (t.pc.toNat + k.val) = some (s.reg k) := by
    rw [← hea]; exact stored k hk (by rw [hea]; omega)
  exact ⟨t, ht, hpc, checkPc_fetch_eq (read 0 (by decide)) (read 1 (by decide))⟩

/-- Settles O56: the run of writes from 0x200 reaches the bytes of the image that fit and no other byte. -/
theorem loadRomCopiesTheImage : Obligations.LoadRomCopiesTheImage := by
  intro s image _
  have hlen : (image.take (s.cfg.memSize - 0x200)).length = min image.length (s.cfg.memSize - 0x200) := by
    rw [List.length_take, Nat.min_comm]
  refine ⟨s.loadRom image, rfl, fun k hk => ?_, fun a ha => ?_, writeBytes_keeps s _ _⟩ <;> rw [loadRom_eq]
  · rw [State.readByte_writeBytes, if_pos (by omega), Nat.add_sub_cancel_left,
      List.getElem?_take_of_lt (by omega)]
  · exact State.readByte_writeBytes_outside s (by omega)

end Sys2Proof

end

section

namespace Sys2Proof

open Machine

/-! ## The word of an instruction, decoded (spec/30_encoding.md R91, R92, R96) -/

/-- A word with OP 8 is one of the nine 8XYn rows, or none, by its N. -/
theorem decode_formatR_alu (x y n : Fin 16) : decode (formatR 0x8 x y n) = decodeAlu x y n := by
  simp [decode]

/-- A word with OP E is one of the two EXnn rows, or none, by its NN. -/
theorem decode_formatI_key (x : RegId) (nn : Byte) : decode (formatI 0xE x nn) = decodeKey x nn := by
  simp [decode]

/-- A word with OP F is one of the nine FXnn rows, or none, by its NN. -/
theorem decode_formatI_misc (x : RegId) (nn : Byte) : decode (formatI 0xF x nn) = decodeMisc x nn := by
  simp [decode]

/-- Encoding then decoding is the identity: OP selects the case, for OP 8, E and F the fixed N or NN selects
the row, and the operands are read from the fields they were put in. -/
theorem decode_encode (i : Instr) : decode (encode i) = .ok i := by
  cases i with
  | cls | ret => rfl
  | jp nnn | call nnn | ldI nnn | jpV0 nnn => simp [encode, decode]
  | seImm x nn | sneImm x nn | ldImm x nn | addImm x nn | rnd x nn => simp [encode, decode]
  | seReg x y | sneReg x y | drw x y n => simp [encode, decode]
  | ldReg x y | orReg x y | andReg x y | xorReg x y | addReg x y | subReg x y | shr x y | subn x y
  | shl x y => exact decode_formatR_alu x y _
  | skp x | sknp x => exact decode_formatI_key x _
  | ldVxDt x | ldVxK x | ldDtVx x | ldStVx x | addI x | ldF x | ldB x | storeRegs x | loadRegs x =>
    exact decode_formatI_misc x _

/-- A number decodes to the instruction whose word has that value. -/
theorem decode_ofNat {i : Instr} {k : Nat} (h : (encode i).toNat = k) :
    decode (BitVec.ofNat 16 k) = .ok i := by
  rw [← h, BitVec.ofNat_toNat, BitVec.setWidth_eq, decode_encode]

/-! ## A recognised word is an instruction's (R93, R98) -/

section fields
variable {w : Word} {k : Nat} (hop : (opField w).toNat = k)
include hop

/-! A word as its own fields, its OP given as the number `decode` compares. -/

theorem formatA_of_opField : formatA (BitVec.ofNat 4 k) (nnnField w) = w := by
  rw [← opField_of_toNat hop, formatA_fields]

theorem formatI_of_opField : formatI (BitVec.ofNat 4 k) (xField w) (nnField w) = w := by
  rw [← opField_of_toNat hop, formatI_fields]

theorem formatR_of_opField : formatR (BitVec.ofNat 4 k) (xField w) (yField w) (nField w) = w := by
  rw [← opField_of_toNat hop, formatR_fields]

end fields

/-- Decoding then encoding gives a recognised word back: whatever OP selects puts the fields it read where
they stood. Case h_1 of `decode` is OP 0, h_2 is OP 1, and so on to h_16, OP F. -/
theorem encode_of_decode {w : Word} {i : Instr} (h : decode w = .ok i) : encode i = w := by
  unfold decode at h
  split at h
  case h_1 =>
    split_ifs at h with hw hw' <;> cases h
    · exact hw.symm
    · exact hw'.symm
  case h_2 hop | h_3 hop | h_11 hop | h_12 hop => cases h; exact formatA_of_opField hop
  case h_4 hop | h_5 hop | h_7 hop | h_8 hop | h_13 hop => cases h; exact formatI_of_opField hop
  case h_6 hop | h_10 hop =>
    split_ifs at h with hn
    cases h
    rw [encode, ← hn]
    exact formatR_of_opField hop
  case h_9 hop => rw [decodeAlu_ok h]; exact formatR_of_opField hop
  case h_14 hop => cases h; exact formatR_of_opField hop
  case h_15 hop => rw [decodeKey_ok h]; exact formatI_of_opField hop
  case h_16 =>
    have hop : (opField w).toNat = 0xF := by simp only [imp_false] at *; omega
    rw [decodeMisc_ok h]; exact formatI_of_opField hop

/-! ## The words the sub-decoders reject (R98) -/

/-- A chain of tests answers an error when its test fails and the rest of the chain does. -/
theorem exists_error_ite {c : Prop} [Decidable c] {i : Instr} {r : Except Unrecognised Instr} :
    (∃ e, (if c then .ok i else r) = .error e) ↔ ¬c ∧ ∃ e, r = .error e := by
  split <;> simp [*]

/-- The N of R98's line for OP 8; case h_10 of `decodeAlu` is its default. -/
theorem decodeAlu_error_iff {x y n : Fin 16} :
    (∃ e, decodeAlu x y n = .error e) ↔ n.val ∈ [0x8, 0x9, 0xA, 0xB, 0xC, 0xD, 0xF] := by
  unfold decodeAlu
  split
  case h_10 =>
    refine iff_of_true ⟨_, rfl⟩ ?_
    simp only [imp_false, List.mem_cons, List.not_mem_nil, or_false] at *
    omega
  all_goals next hn => simp [hn]

theorem decodeKey_error_iff {x : RegId} {nn : Byte} :
    (∃ e, decodeKey x nn = .error e) ↔ nn.toNat ∉ [0x9E, 0xA1] := by
  simp [decodeKey, exists_error_ite, ← BitVec.toNat_inj]

theorem decodeMisc_error_iff {x : RegId} {nn : Byte} :
    (∃ e, decodeMisc x nn = .error e) ↔
      nn.toNat ∉ [0x07, 0x0A, 0x15, 0x18, 0x1E, 0x29, 0x33, 0x55, 0x65] := by
  simp [decodeMisc, exists_error_ite, ← BitVec.toNat_inj]

/-! ## The rows a word selects (R94, R96) -/

/-- The mask of formats A, I and D fixes OP. -/
theorem opField_of_maskA {w v : Word} (h : w &&& 0xF000 = v) :
    (opField w).toNat = v.toNat / 4096 := by
  rw [← formatA_fields w, formatA_maskA] at h
  rw [← h, ← opField_toNat, opField_formatA]

/-- The mask of format R fixes OP and N. -/
theorem fields_of_maskR {w v : Word} (h : w &&& 0xF00F = v) :
    (opField w).toNat = v.toNat / 4096 ∧ (nField w).val = v.toNat % 16 := by
  rw [← formatR_fields w, formatR_maskR] at h
  rw [← h, ← opField_toNat, ← nField_val, opField_formatR, nField_formatR]
  exact ⟨rfl, rfl⟩

/-- The mask of format X fixes OP and NN. -/
theorem fields_of_maskX {w v : Word} (h : w &&& 0xF0FF = v) :
    (opField w).toNat = v.toNat / 4096 ∧ (nnField w).toNat = v.toNat % 256 := by
  rw [← formatI_fields w, formatI_maskX] at h
  rw [← h, ← opField_toNat, ← nnField_toNat, opField_formatI, nnField_formatI]
  exact ⟨rfl, rfl⟩

/-- A word that selects a row decodes to an instruction of it: the row's mask fixes every field that
`decode` tests. -/
theorem decode_of_selects {j : Instr} {w : Word} (h : (rowOf j).selects w) :
    ∃ i, decode w = .ok i ∧ rowOf i = rowOf j := by
  cases j with
  | cls | ret =>
    obtain rfl := (BitVec.and_allOnes (x := w)).symm.trans h
    exact ⟨_, rfl, rfl⟩
  | jp nnn | call nnn | ldI nnn | jpV0 nnn => simp [decode, opField_of_maskA h, rowOf]
  | seImm x nn | sneImm x nn | ldImm x nn | addImm x nn | rnd x nn =>
    simp [decode, opField_of_maskA h, rowOf]
  | drw x y n => simp [decode, opField_of_maskA h, rowOf]
  | seReg x y | sneReg x y => simp [decode, fields_of_maskR h, Fin.ext_iff, rowOf]
  | ldReg x y | orReg x y | andReg x y | xorReg x y | addReg x y | subReg x y | shr x y | subn x y
  | shl x y => simp [decode, decodeAlu, fields_of_maskR h, rowOf]
  | skp x | sknp x => simp [decode, decodeKey, fields_of_maskX h, ← BitVec.toNat_inj, rowOf]
  | ldVxDt x | ldVxK x | ldDtVx x | ldStVx x | addI x | ldF x | ldB x | storeRegs x | loadRegs x =>
    simp [decode, decodeMisc, fields_of_maskX h, ← BitVec.toNat_inj, rowOf]

/-- The lemmas of `Laws.RowSelects`, one per instruction, put together. -/
theorem rowSelects : ∀ i : Instr, Laws.RowSelects.Statement i
  | .cls => Laws.RowSelects.cls
  | .ret => Laws.RowSelects.ret
  | .jp nnn => Laws.RowSelects.jp nnn
  | .call nnn => Laws.RowSelects.call nnn
  | .seImm x nn => Laws.RowSelects.seImm x nn
  | .sneImm x nn => Laws.RowSelects.sneImm x nn
  | .seReg x y => Laws.RowSelects.seReg x y
  | .ldImm x nn => Laws.RowSelects.ldImm x nn
  | .addImm x nn => Laws.RowSelects.addImm x nn
  | .ldReg x y => Laws.RowSelects.ldReg x y
  | .orReg x y => Laws.RowSelects.orReg x y
  | .andReg x y => Laws.RowSelects.andReg x y
  | .xorReg x y => Laws.RowSelects.xorReg x y
  | .addReg x y => Laws.RowSelects.addReg x y
  | .subReg x y => Laws.RowSelects.subReg x y
  | .shr x y => Laws.RowSelects.shr x y
  | .subn x y => Laws.RowSelects.subn x y
  | .shl x y => Laws.RowSelects.shl x y
  | .sneReg x y => Laws.RowSelects.sneReg x y
  | .ldI nnn => Laws.RowSelects.ldI nnn
  | .jpV0 nnn => Laws.RowSelects.jpV0 nnn
  | .rnd x nn => Laws.RowSelects.rnd x nn
  | .drw x y n => Laws.RowSelects.drw x y n
  | .skp x => Laws.RowSelects.skp x
  | .sknp x => Laws.RowSelects.sknp x
  | .ldVxDt x => Laws.RowSelects.ldVxDt x
  | .ldVxK x => Laws.RowSelects.ldVxK x
  | .ldDtVx x => Laws.RowSelects.ldDtVx x
  | .ldStVx x => Laws.RowSelects.ldStVx x
  | .addI x => Laws.RowSelects.addI x
  | .ldF x => Laws.RowSelects.ldF x
  | .ldB x => Laws.RowSelects.ldB x
  | .storeRegs x => Laws.RowSelects.storeRegs x
  | .loadRegs x => Laws.RowSelects.loadRegs x

/-- An instruction's word selects the instruction's own row. -/
theorem rowOf_selects_encode (i : Instr) : (rowOf i).selects (encode i) := (rowSelects i).right

/-- A word selects a row of the table exactly when it decodes to an instruction of that row. -/
theorem selects_iff_decode {r : Row} (hr : r ∈ opcodeTable) {w : Word} :
    r.selects w ↔ ∃ i, decode w = .ok i ∧ rowOf i = r := by
  obtain ⟨j, _, rfl⟩ := List.mem_map.1 hr
  refine ⟨decode_of_selects, fun ⟨i, hi, hrow⟩ => ?_⟩
  rw [← hrow, ← encode_of_decode hi]
  exact rowOf_selects_encode i

/-! ## Source lines (R100) -/

/-- A source line of an instruction, the destination first (R100; D25). -/
def sourceOf : Instr → Mnemonic × List Operand
  | .cls => (.CLS, [])
  | .ret => (.RET, [])
  | .jp nnn => (.JP, [.addr nnn])
  | .call nnn => (.CALL, [.addr nnn])
  | .seImm x nn => (.SE, [.reg x, .byte nn])
  | .sneImm x nn => (.SNE, [.reg x, .byte nn])
  | .seReg x y => (.SE, [.reg x, .reg y])
  | .ldImm x nn => (.LD, [.reg x, .byte nn])
  | .addImm x nn => (.ADD, [.reg x, .byte nn])
  | .ldReg x y => (.LD, [.reg x, .reg y])
  | .orReg x y => (.OR, [.reg x, .reg y])
  | .andReg x y => (.AND, [.reg x, .reg y])
  | .xorReg x y => (.XOR, [.reg x, .reg y])
  | .addReg x y => (.ADD, [.reg x, .reg y])
  | .subReg x y => (.SUB, [.reg x, .reg y])
  | .shr x y => (.SHR, [.reg x, .reg y])
  | .subn x y => (.SUBN, [.reg x, .reg y])
  | .shl x y => (.SHL, [.reg x, .reg y])
  | .sneReg x y => (.SNE, [.reg x, .reg y])
  | .ldI nnn => (.LD, [.I, .addr nnn])
  | .jpV0 nnn => (.JP, [.reg 0, .addr nnn])
  | .rnd x nn => (.RND, [.reg x, .byte nn])
  | .drw x y n => (.DRW, [.reg x, .reg y, .nibble n])
  | .skp x => (.SKP, [.reg x])
  | .sknp x => (.SKNP, [.reg x])
  | .ldVxDt x => (.LD, [.reg x, .DT])
  | .ldVxK x => (.LD, [.reg x, .K])
  | .ldDtVx x => (.LD, [.DT, .reg x])
  | .ldStVx x => (.LD, [.ST, .reg x])
  | .addI x => (.ADD, [.I, .reg x])
  | .ldF x => (.LD, [.F, .reg x])
  | .ldB x => (.LD, [.B, .reg x])
  | .storeRegs x => (.LD, [.atI, .reg x])
  | .loadRegs x => (.LD, [.reg x, .atI])

/-- The assembler reads the line back as the instruction; `JP V0, addr` is the one line with a test. -/
theorem parse_sourceOf (i : Instr) : parse (sourceOf i).1 (sourceOf i).2 = some i := by
  cases i <;> rfl

theorem assembleLine_of_parse {m : Mnemonic} {ops : List Operand} {i : Instr}
    (h : parse m ops = some i) : assembleLine (.instr m ops) = some (bytesOfWord (encode i)) := by
  rw [assembleLine, h, Option.map_some]

/-! ## The statements -/

/-- Settles O1, by cases on the instruction. -/
theorem decodeOfEncodeIsTheInstruction : Obligations.DecodeOfEncodeIsTheInstruction := decode_encode

/-- Settles O2, by cases on the word's OP. -/
theorem encodeOfDecodeIsTheWord : Obligations.EncodeOfDecodeIsTheWord := fun _ _ => encode_of_decode

/-- Settles O4: each number is the value of its instruction's word, a sum over its format's fields. -/
theorem everyPatternDecodes : Obligations.EveryPatternDecodes := by
  intro nnn nn x y n word X Y
  and_intros
  all_goals refine decode_ofNat ?_
  all_goals simp only [encode, formatA_toNat, formatI_toNat, formatR_toNat, BitVec.ofNat_eq_ofNat,
    BitVec.toNat_ofNat]
  all_goals omega

/-- Settles O5, by cases on the word's OP (case h_1 is OP 0, and so on to h_16, OP F): only OP 0, 5, 8, 9, E
and F test another field, and those reject what R98 lists for them. -/
theorem unrecognisedWordsAreTheListedOnes : Obligations.UnrecognisedWordsAreTheListedOnes := by
  intro w
  have hzero : w.toNat < 0x1000 ↔ w.toNat / 4096 = 0 := by omega
  have hnibble : nField w = 0 ↔ w.toNat % 16 = 0 := by rw [Fin.ext_iff, nField_val]; rfl
  simp only [hzero, ← opField_toNat]
  unfold decode
  split
  case h_1 hop => simp [hop, exists_error_ite, ← BitVec.toNat_inj]
  case h_6 hop | h_10 hop => simp [hop, exists_error_ite, hnibble]
  case h_9 hop => rw [decodeAlu_error_iff, nField_val]; simp [hop]
  case h_15 hop => rw [decodeKey_error_iff, nnField_toNat]; simp [hop]
  case h_16 =>
    have hop : (opField w).toNat = 0xF := by simp only [imp_false] at *; omega
    rw [decodeMisc_error_iff, nnField_toNat]; simp [hop]
  all_goals next hop => simp [hop]

/-- Settles O6: two selected rows are both the row of the one instruction the word decodes to. -/
theorem wordsSelectAtMostOneRow : Obligations.WordsSelectAtMostOneRow := by
  refine fun w => ⟨fun p hp q hq hpw hqw => ?_, fun r hr => selects_iff_decode hr⟩
  obtain ⟨i, hi, rfl⟩ := (selects_iff_decode hp).1 hpw
  obtain ⟨j, hj, rfl⟩ := (selects_iff_decode hq).1 hqw
  cases hi.symm.trans hj
  rfl

/-- Settles O7 with the line of `sourceOf`, whose two bytes put together are the instruction's word. -/
theorem everyInstructionAssembles : Obligations.EveryInstructionAssembles := fun i =>
  ⟨_, _, _, _, parse_sourceOf i, assembleLine_of_parse (parse_sourceOf i),
    (congrArg decode (wordOfBytes_bytesOfWord (encode i))).trans (decode_encode i)⟩

/-- Settles O3: each word is the encoding of the instruction it decodes to. -/
theorem writtenOutWordsDecode : Obligations.WrittenOutWordsDecode :=
  ⟨decode_encode .cls, decode_encode .ret, decode_encode (.jp 0x234), decode_encode (.call 0x300),
    decode_encode (.seImm 2 0x2A), decode_encode (.addReg 1 2), decode_encode (.shl 1 2),
    decode_encode (.ldI 0x2F0), decode_encode (.ldB 5), decode_encode (.drw 1 2 5),
    decode_encode (.sknp 1), decode_encode (.rnd 2 0x0F), decode_encode (.ldVxK 2)⟩

end Sys2Proof

end

section

namespace Sys2Proof.Machine

/-! ## Jumps, calls and skips as arithmetic (spec/40_control_flow.md) -/

/-- JP V0 adds V0, or under the BXNN quirk the register of the address's top nibble (R126). -/
theorem jumpOffsetReg_val (q : Quirks) (nnn : BitVec 12) :
    (jumpOffsetReg q nnn).val = if q.bxnn then nnn.toNat / 256 else 0 := by
  unfold jumpOffsetReg
  split
  · exact topNibble_val nnn
  · rfl

/-- A jump to where the machine already is changes nothing (R121). -/
theorem setPc_of_pc_eq {s : State} {a : Word} (h : s.pc = a) : s.setPc a = s := by
  subst h; rfl

theorem skipIf_pc_toNat (s : State) (c : Bool) :
    (s.skipIf c).pc.toNat = (s.pc.toNat + if c then 4 else 2) % 65536 := by
  cases c <;> exact BitVec.toNat_add s.pc _

/-- SKP and SKNP look at the key of the register's value modulo 16 (R203). -/
theorem keyDown_eq (s : State) (b : Byte) :
    s.keyDown b = s.key[b.toNat % 16]'(Nat.mod_lt _ (by decide)) := by
  simp only [State.keyDown, Fin.getElem_fin, lowNibble_val]

theorem byte_beq_eq_decide_toNat (a b : Byte) : (a == b) = decide (a.toNat = b.toNat) := by
  rw [decide_eq_decide.2 BitVec.toNat_inj]; rfl

theorem byte_bne_eq_decide_toNat (a b : Byte) : (a != b) = decide (a.toNat ≠ b.toNat) := by
  rw [bne, byte_beq_eq_decide_toNat, decide_not]

/-- Each conditional skip is `skipIf` of the condition its rule names (R124, R125, R127, R128, R204,
R205). -/
theorem exec_of_skipTest {s : State} {i : Instr} {c : Bool} (h : Claims.skipTest s i = some c) :
    exec i s = .next (s.skipIf c) := by
  cases i with
  | seImm _ _ | seReg _ _ =>
    cases h; exact congrArg (Host.Outcome.next ∘ s.skipIf) (byte_beq_eq_decide_toNat _ _)
  | sneImm _ _ | sneReg _ _ =>
    cases h; exact congrArg (Host.Outcome.next ∘ s.skipIf) (byte_bne_eq_decide_toNat _ _)
  | skp x => cases h; exact congrArg (Host.Outcome.next ∘ s.skipIf) (keyDown_eq s (s.reg x))
  | sknp x => cases h; exact congrArg (Host.Outcome.next ∘ s.skipIf ∘ not) (keyDown_eq s (s.reg x))
  | _ => cases h

end Sys2Proof.Machine

namespace Sys2Proof

open Machine

/-! ## The statements about control flow (spec/40_control_flow.md) -/

/-- Settles O28: the two clauses are the two answers of CALL, by whether the stack has room. -/
theorem callPushesItsOwnAddress : Obligations.CallPushesItsOwnAddress := by
  refine fun nnn s => ⟨fun hsp => ?_, fun hsp => ?_⟩
  · have hexec := execCall_of_lt nnn hsp
    refine ⟨_, hexec, zextAddr_toNat nnn, ?_,
      exec_keepsAllBut_mayChange (i := .call nnn) hexec, fun k => ?_⟩
    · change (s.sp + 1).toNat = s.sp.toNat + 1
      bv_omega
    · change (s.stack.set s.sp.toNat s.pc)[k.val] = _
      simp only [Vector.getElem_set, eq_comm (a := s.sp.toNat), Fin.getElem_fin]
  · exact ⟨_, execCall_of_ge nnn hsp, rfl, setPc_keeps s 0⟩

/-- Settles O29: the three clauses are the three answers of RET, by `sp`. -/
theorem returnResumesAfterTheCall : Obligations.ReturnResumesAfterTheCall := by
  refine fun s => ⟨fun k hk => ?_, fun h0 => ⟨_, execRet_of_zero h0, rfl, setPc_keeps s 0⟩, execRet_of_gt⟩
  have hexec := execRet_of_succ k hk
  refine ⟨_, hexec, ?_, BitVec.toNat_add _ _, exec_keepsAllBut_mayChange (i := .ret) hexec⟩
  change (s.sp - 1).toNat = k.val
  bv_omega

/-- Settles O30: the entry RET pops is the one at the caller's `sp`, where CALL put its own address. -/
theorem returnUndoesCall : Obligations.ReturnUndoesCall := by
  intro nnn s t u hsp hcall husp hustack
  obtain ⟨_, rfl⟩ | ⟨hge, _⟩ := execCall_next hcall
  · have hsp' : u.sp = s.sp + 1 := husp
    have hpop : u.sp.toNat = s.sp.toNat + 1 := by bv_omega
    have htop : u.stack[s.sp.toNat] = s.pc := by rw [hustack]; exact Vector.getElem_set_self hsp
    have hexec := execRet_of_succ ⟨s.sp.toNat, hsp⟩ hpop
    refine ⟨_, hexec, congrArg (· + 2) htop, ?_, exec_keepsAllBut_mayChange (i := .ret) hexec⟩
    change u.sp - 1 = s.sp
    rw [hsp', BitVec.add_sub_cancel]
  · omega

/-- Settles O31: each skip is `skipIf` of its condition, which writes `pc` alone. -/
theorem skipsAdvanceByFourOrTwo : Obligations.SkipsAdvanceByFourOrTwo := fun _ s c h =>
  ⟨_, exec_of_skipTest h, skipIf_pc_toNat s c, setPc_keeps s _⟩

/-- Settles O26: the target is NNN zero-extended, and a jump to `pc` itself writes what stands there. -/
theorem jumpGoesToItsTarget : Obligations.JumpGoesToItsTarget := fun nnn s =>
  ⟨_, rfl, zextAddr_toNat nnn, setPc_keeps s _, fun h =>
    setPc_of_pc_eq (BitVec.eq_of_toNat_eq (h.trans (zextAddr_toNat nnn).symm))⟩

/-- Settles O27: the register named by its number is the one the quirk selects, and the sum fits 16
bits. -/
theorem indexedJumpAddsTheSelectedRegister : Obligations.IndexedJumpAddsTheSelectedRegister := by
  intro nnn s k hk
  obtain rfl : k = jumpOffsetReg s.cfg.quirks nnn := Fin.ext (hk.trans (jumpOffsetReg_val _ nnn).symm)
  exact ⟨_, rfl, zextAddr_add_zextByte_toNat nnn _, setPc_keeps s _⟩

end Sys2Proof

end

section

namespace Sys2Proof.Machine

/-! ## What the load and ALU family leaves behind (spec/41_load_alu.md R140, R141, R150) -/

/-- The end of an instruction that writes one register and no flag: the other registers kept, `pc + 2`. -/
theorem setReg_advance_spec (s : State) (x : RegId) (r : Byte) :
    (s.setReg x r).advance.reg x = r ∧ KeepsRegsBut [x] s (s.setReg x r).advance ∧
    (s.setReg x r).advance.pc = s.pc + 2 ∧ KeepsAllBut [.pc, .v] s (s.setReg x r).advance :=
  ⟨State.setReg_reg_same s x r, fun _ hz => State.setReg_reg_ne s x r (List.ne_of_not_mem_cons hz), rfl,
    (setReg_keeps s x r).cons (setPc_keeps _ _)⟩

/-- `finishAlu_spec` with the flag and the result as numbers. -/
theorem finishAlu_toNat_spec {s : State} {x : RegId} {r f : Byte} {flag result : Nat}
    (hf : f.toNat = flag) (hr : r.toNat = result) :
    ((s.finishAlu x r f).reg 15).toNat = flag ∧
    (x ≠ 15 → ((s.finishAlu x r f).reg x).toNat = result) ∧
    KeepsRegsBut [x, 15] s (s.finishAlu x r f) ∧ (s.finishAlu x r f).pc = s.pc + 2 ∧
    KeepsAllBut [.pc, .v] s (s.finishAlu x r f) := by
  obtain ⟨hflag, hresult, frame⟩ := finishAlu_spec s x r f
  exact ⟨(congrArg _ hflag).trans hf, fun hx => (congrArg _ (hresult hx)).trans hr, frame⟩

/-- The end of OR, AND and XOR under either setting of the VF_RESET quirk: the result stands in `v[x]`
unless the quirk clears that very register (R150). -/
theorem finishLogic_spec (s : State) (x : RegId) (r : Byte) :
    (s.cfg.quirks.vfReset = true →
      (s.finishLogic x r).reg 15 = 0 ∧ KeepsRegsBut [x, 15] s (s.finishLogic x r)) ∧
    (s.cfg.quirks.vfReset = false → KeepsRegsBut [x] s (s.finishLogic x r)) ∧
    (s.cfg.quirks.vfReset = false ∨ x ≠ 15 → (s.finishLogic x r).reg x = r) ∧
    (s.finishLogic x r).pc = s.pc + 2 ∧ KeepsAllBut [.pc, .v] s (s.finishLogic x r) := by
  cases hq : s.cfg.quirks.vfReset with
  | false =>
    obtain ⟨hresult, hregs, frame⟩ := setReg_advance_spec s x r
    rw [finishLogic_off hq]
    exact ⟨nofun, fun _ => hregs, fun _ => hresult, frame⟩
  | true =>
    obtain ⟨hflag, hresult, hregs, frame⟩ := finishAlu_spec s x r 0
    rw [finishLogic_on hq]
    exact ⟨fun _ => ⟨hflag, hregs⟩, nofun, fun h => hresult (h.resolve_left nofun), frame⟩

/-- The registers that OR, AND and XOR end with (R150). -/
def logicRegs (cfg : Config) (v : Vector Byte 16) (x : RegId) (r : Byte) : Vector Byte 16 :=
  if cfg.quirks.vfReset then (v.set x r).set vf 0 else v.set x r

theorem finishLogic_eq (s : State) (x : RegId) (r : Byte) :
    s.finishLogic x r = (s.setV (logicRegs s.cfg s.v x r)).advance := by
  unfold State.finishLogic logicRegs
  split <;> rfl

/-- Each instruction of the family replaces the registers by a function of the configuration and the
registers alone, moves on by 2 and does nothing else (R140). The cases are in the order of `loadAluFamily`. -/
theorem exec_of_mem_loadAluFamily {x y : RegId} {nn : Byte} {i : Instr}
    (hi : i ∈ Claims.loadAluFamily x y nn) :
    ∃ regs : Config → Vector Byte 16 → Vector Byte 16,
      ∀ s, exec i s = .next (s.setV (regs s.cfg s.v)).advance := by
  simp only [Claims.loadAluFamily, List.mem_cons, List.not_mem_nil, or_false] at hi
  rcases hi with rfl | rfl | rfl | rfl | rfl | rfl | rfl | rfl | rfl | rfl | rfl
  · exact ⟨fun _ v => v.set x nn, fun _ => rfl⟩
  · exact ⟨fun _ v => v.set x (v[x] + nn), fun _ => rfl⟩
  · exact ⟨fun _ v => v.set x v[y], fun _ => rfl⟩
  · exact ⟨fun cfg v => logicRegs cfg v x (v[x] ||| v[y]), fun s => congrArg _ (finishLogic_eq s x _)⟩
  · exact ⟨fun cfg v => logicRegs cfg v x (v[x] &&& v[y]), fun s => congrArg _ (finishLogic_eq s x _)⟩
  · exact ⟨fun cfg v => logicRegs cfg v x (v[x] ^^^ v[y]), fun s => congrArg _ (finishLogic_eq s x _)⟩
  · exact ⟨fun _ v => (v.set x (v[x] + v[y])).set vf (carryFlag v[x] v[y]), fun _ => rfl⟩
  · exact ⟨fun _ v => (v.set x (v[x] - v[y])).set vf (aboveFlag v[x] v[y]), fun _ => rfl⟩
  · exact ⟨fun cfg v => (v.set x (v[shiftSource cfg.quirks x y] >>> 1)).set vf
      (shrFlag v[shiftSource cfg.quirks x y]), fun _ => rfl⟩
  · exact ⟨fun _ v => (v.set x (v[y] - v[x])).set vf (aboveFlag v[y] v[x]), fun _ => rfl⟩
  · exact ⟨fun cfg v => (v.set x (v[shiftSource cfg.quirks x y] <<< 1)).set vf
      (shlFlag v[shiftSource cfg.quirks x y]), fun _ => rfl⟩

/-- A shift reads `v[y]`, or `v[x]` under the SHIFT quirk (R156). -/
theorem reg_shiftSource_toNat (s : State) (x y : RegId) :
    (s.reg (shiftSource s.cfg.quirks x y)).toNat =
      if s.cfg.quirks.shift then (s.reg x).toNat else (s.reg y).toNat := by
  unfold shiftSource
  split <;> rfl

theorem byte_sub_toNat (a b : Byte) : (a - b).toNat = (a.toNat + 256 - b.toNat) % 256 := by
  bv_omega

theorem byte_shiftRight_one_toNat (a : Byte) : (a >>> 1).toNat = a.toNat / 2 := by
  rw [BitVec.toNat_ushiftRight, Nat.shiftRight_eq_div_pow, Nat.pow_one]

theorem byte_shiftLeft_one_toNat (a : Byte) : (a <<< 1).toNat = 2 * a.toNat % 256 := by
  rw [BitVec.toNat_shiftLeft, Nat.shiftLeft_eq, Nat.pow_one, Nat.mul_comm]

end Sys2Proof.Machine

namespace Sys2Proof

open Machine

/-! ## The statements about loads and ALU instructions (spec/41_load_alu.md) -/

/-- Settles O23: two states that agree on the configuration and the registers get the same registers. -/
theorem aluFamilyTouchesOnlyRegisters : Obligations.AluFamilyTouchesOnlyRegisters := by
  intro x y nn i hi s
  obtain ⟨regs, hexec⟩ := exec_of_mem_loadAluFamily hi
  refine ⟨_, hexec s, rfl, (setV_keeps s _).cons (setPc_keeps _ _), fun s' hv hcfg => ⟨_, hexec s', ?_⟩⟩
  change regs s'.cfg s'.v = regs s.cfg s.v
  rw [hv, hcfg]

/-- Settles O33: the result's bits are those of the bitwise operation, the rest is `finishLogic_spec`. -/
theorem logicResetsVfOnlyUnderTheQuirk : Obligations.LogicResetsVfOnlyUnderTheQuirk := by
  intro x y s p hp
  obtain ⟨r, hexec, hbit⟩ : ∃ r, exec p.1 s = .next (s.finishLogic x r) ∧
      ∀ k, r.getLsbD k = p.2 ((s.reg x).getLsbD k) ((s.reg y).getLsbD k) := by
    simp only [Claims.logicBit, List.mem_cons, List.not_mem_nil, or_false] at hp
    rcases hp with rfl | rfl | rfl
    · exact ⟨_, rfl, fun _ => BitVec.getLsbD_or⟩
    · exact ⟨_, rfl, fun _ => BitVec.getLsbD_and⟩
    · exact ⟨_, rfl, fun _ => BitVec.getLsbD_xor⟩
  obtain ⟨hon, hoff, hresult, frame⟩ := finishLogic_spec s x r
  exact ⟨_, hexec, hon, hoff, fun h k _ => by rw [hresult h, hbit], frame⟩

/-- Settles O35: the two instructions differ in which operand is the minuend. -/
theorem subtractSetsVfWhenMinuendIsAbove : Obligations.SubtractSetsVfWhenMinuendIsAbove := by
  intro x y s p hp
  simp only [List.mem_cons, List.not_mem_nil, or_false] at hp
  rcases hp with rfl | rfl
  · exact ⟨_, rfl, finishAlu_toNat_spec (aboveFlag_toNat _ _) (byte_sub_toNat _ _)⟩
  · exact ⟨_, rfl, finishAlu_toNat_spec (aboveFlag_toNat _ _) (byte_sub_toNat _ _)⟩

/-- Settles O36: `a` is the value of the register that the SHIFT quirk selects. -/
theorem shiftsPutTheLostBitInVf : Obligations.ShiftsPutTheLostBitInVf := by
  intro x y s a ha
  obtain rfl := ha.trans (reg_shiftSource_toNat s x y).symm
  exact ⟨⟨_, rfl, finishAlu_toNat_spec (shrFlag_toNat _) (byte_shiftRight_one_toNat _)⟩,
    ⟨_, rfl, finishAlu_toNat_spec (shlFlag_toNat _) (byte_shiftLeft_one_toNat _)⟩⟩

/-- Settles O32: each of the three writes its value to `v[x]` and moves on. -/
theorem loadsAndImmediateAddWriteOneRegister : Obligations.LoadsAndImmediateAddWriteOneRegister := by
  intro x y nn s
  refine ⟨⟨_, rfl, setReg_advance_spec s x nn⟩, ?_, ⟨_, rfl, setReg_advance_spec s x (s.reg y)⟩⟩
  obtain ⟨hresult, frame⟩ := setReg_advance_spec s x (s.reg x + nn)
  exact ⟨_, rfl, by rw [hresult, BitVec.toNat_add], frame⟩

/-- Settles O34: the sum of two bytes, and its carry. -/
theorem addSetsCarryInVf : Obligations.AddSetsCarryInVf := fun _ _ _ =>
  ⟨_, rfl, finishAlu_toNat_spec (carryFlag_toNat _ _) (BitVec.toNat_add _ _)⟩

end Sys2Proof

end

section

namespace Sys2Proof.Machine

/-! ## Memory runs and bulk transfers as arithmetic (spec/42_index_memory.md R174 to R178) -/

/-- A byte of a run of writes that lies in memory reads as written. -/
theorem readByte_writeBytes_inside (s : State) {a k : Nat} {bs : List Byte} (hk : k < bs.length)
    (hm : a + k < s.cfg.memSize) : (s.writeBytes a bs).readByte (a + k) = bs[k]? := by
  rw [State.readByte_writeBytes, if_pos (by omega), Nat.add_sub_cancel_left]

/-- The digits by their place: hundreds, tens, units (R174). -/
theorem decimalDigits_getElem? (b : Byte) (k : Fin 3) :
    ∃ d, (decimalDigits b)[k.val]? = some d ∧ d.toNat = b.toNat / 10 ^ (2 - k.val) % 10 := by
  match k with
  | 0 =>
    have hdigit : b.toNat / 100 < 10 := by omega
    exact ⟨b / 100, rfl, (Nat.mod_eq_of_lt hdigit).symm⟩
  | 1 => exact ⟨b / 10 % 10, rfl, rfl⟩
  | 2 => exact ⟨b % 10, rfl, congrArg (· % 10) (Nat.div_one _).symm⟩

/-! What the two ends of a load leave alone. -/

section frames
variable (s : State) (n : Nat)
@[simp] theorem advanceI_reg (x : RegId) : (s.advanceI n).reg x = s.reg x := rfl
@[simp] theorem advanceI_pc : (s.advanceI n).pc = s.pc := rfl
@[simp] theorem loadFirstRegs_cfg : (s.loadFirstRegs n).cfg = s.cfg := rfl
@[simp] theorem loadFirstRegs_i : (s.loadFirstRegs n).i = s.i := rfl
@[simp] theorem loadFirstRegs_pc : (s.loadFirstRegs n).pc = s.pc := rfl
end frames

theorem transferCount_le_succ (s : State) (x : RegId) : s.transferCount x ≤ x.val + 1 := by
  refine Nat.le_of_not_lt fun h => ?_
  obtain ⟨hx, _⟩ := lt_transferCount.1 h
  omega

/-- The model's advance is R175's: one less than none is none. -/
theorem transferAdvance_transferCount (s : State) (x : RegId) :
    transferAdvance s.cfg.quirks (s.transferCount x) = Claims.bulkAdvance s x := by
  have hmoved : s.transferCount x = Claims.bulkMoved s x := rfl
  have hpred (n : Nat) : n - 1 = if n = 0 then 0 else n - 1 := by split <;> omega
  rw [transferAdvance, Claims.bulkAdvance, hmoved, ← hpred]

/-- `i` at the end of a transfer that has left `i` and the quirks alone so far (R175). -/
theorem advanceI_transferCount_i_toNat {s t : State} (x : RegId) (hi : t.i = s.i) (hcfg : t.cfg = s.cfg) :
    (t.advanceI (s.transferCount x)).i.toNat = (s.i.toNat + Claims.bulkAdvance s x) % 65536 := by
  rw [State.advanceI, State.setI_i, hi, hcfg, transferAdvance_transferCount, BitVec.toNat_add,
    BitVec.toNat_ofNat, Nat.add_mod_mod]

/-- A load reads `v[k]` from `i + k`, for each k up to X whose address is in memory (R178). -/
theorem readByte_eq_loadFirstRegs_reg {s : State} {x k : RegId} (hk : k.val ≤ x.val)
    (hm : s.ea k < s.cfg.memSize) :
    s.readByte (s.ea k) = some ((s.loadFirstRegs (s.transferCount x)).reg k) := by
  rw [loadFirstRegs_reg, if_pos (lt_transferCount.2 ⟨hk, hm⟩), State.readByte_lt hm, Option.getD_some]

/-- A load leaves alone a register above X and one whose address is beyond memory (R63, R178). -/
theorem loadFirstRegs_reg_of_not_moved {s : State} {x k : RegId}
    (h : x.val < k.val ∨ s.cfg.memSize ≤ s.ea k) :
    (s.loadFirstRegs (s.transferCount x)).reg k = s.reg k := by
  rw [loadFirstRegs_reg, if_neg (by rw [lt_transferCount]; omega)]

/-- A byte of memory is decided by the memory and the configuration. -/
theorem readByte_congr {s t : State} (hmem : t.mem = s.mem) (hcfg : t.cfg = s.cfg) (a : Nat) :
    t.readByte a = s.readByte a := by
  rw [State.readByte, hmem, hcfg, State.readByte]

end Sys2Proof.Machine

namespace Sys2Proof

open Machine

/-! ## The statements about the index register and memory (spec/42_index_memory.md) -/

/-- Settles O38: LD B is a run of three writes from `i`. -/
theorem decimalDigitsAreStoredFromTheIndex : Obligations.DecimalDigitsAreStoredFromTheIndex := by
  intro x s
  refine ⟨_, rfl, fun k hk => ?_, fun a ha => State.readByte_writeBytes_outside s ha,
    congrArg (· + 2) (State.writeBytes_pc s _ _), exec_keepsAllBut_mayChange (i := .ldB x) rfl⟩
  obtain ⟨d, hd, hvalue⟩ := decimalDigits_getElem? (s.reg x) k
  exact ⟨d, (readByte_writeBytes_inside s k.isLt hk).trans hd, hvalue⟩

/-- Settles O39: the store is a run of at most x + 1 writes from `i`, and then the advance of `i`. -/
theorem storeMovesRegistersToMemory : Obligations.StoreMovesRegistersToMemory := by
  intro x s
  refine ⟨_, rfl, fun k hk hm => readByte_writeBytes_firstRegs hk hm, fun a ha => ?_,
    advanceI_transferCount_i_toNat x (State.writeBytes_i s _ _) (State.writeBytes_cfg s _ _),
    congrArg (· + 2) (State.writeBytes_pc s _ _), exec_keepsAllBut_mayChange (i := .storeRegs x) rfl⟩
  have hlen := firstRegs_length s (s.transferCount x)
  have hcount := transferCount_le_succ s x
  have hea : s.ea 0 = s.i.toNat := rfl
  exact State.readByte_writeBytes_outside s (by omega)

/-- Settles O40: the load sets the registers that were moved, and then advances `i`. -/
theorem loadMovesMemoryToRegisters : Obligations.LoadMovesMemoryToRegisters := by
  intro x s
  refine ⟨_, rfl, fun k hk hm => ?_, fun k hk => ?_, ?_, ?_, ?_⟩
  · rw [State.advance_eq, State.setPc_reg, advanceI_reg]
    exact readByte_eq_loadFirstRegs_reg hk hm
  · rw [State.advance_eq, State.setPc_reg, advanceI_reg]
    exact loadFirstRegs_reg_of_not_moved hk
  · exact advanceI_transferCount_i_toNat x (loadFirstRegs_i s _) (loadFirstRegs_cfg s _)
  · simp
  · exact (exec_keepsAllBut_mayChange (i := .loadRegs x) rfl).mono (by simp [mayChange])

/-- Settles O41: the load reads, register by register, the byte that the store put there. -/
theorem loadAfterStoreGivesTheRegistersBack : Obligations.LoadAfterStoreGivesTheRegistersBack := by
  intro x s t u hm hstore hmem hcfg hi
  obtain ⟨_, hstore', stored, _, _, _, frame⟩ := storeMovesRegistersToMemory x s
  cases hstore'.symm.trans hstore
  obtain ⟨r, hload, loaded, _⟩ := loadMovesMemoryToRegisters x u
  refine ⟨r, hload, fun k hk => ?_⟩
  have hk' : k.val ≤ x.val := hk
  have hcfg' : u.cfg = s.cfg := hcfg.trans (frame .cfg (by decide))
  have hread := loaded k hk (by rw [hcfg', hi]; omega)
  rw [readByte_congr hmem hcfg, hi, stored k hk (by omega)] at hread
  exact (Option.some.inj hread).symm

/-- Settles O37: each of the three writes its value to `i` and moves on. -/
theorem indexLoadsWriteOnlyTheIndex : Obligations.IndexLoadsWriteOnlyTheIndex := by
  refine fun nnn x s => ⟨⟨_, rfl, zextAddr_toNat nnn, rfl, ?_⟩, ⟨_, rfl, ?_, rfl, ?_⟩,
    ⟨_, rfl, glyphAddr_toNat (s.reg x), rfl, ?_⟩⟩
  · exact exec_keepsAllBut_mayChange (i := .ldI nnn) rfl
  · exact (BitVec.toNat_add _ _).trans (by rw [zextByte_toNat])
  · exact exec_keepsAllBut_mayChange (i := .addI x) rfl
  · exact exec_keepsAllBut_mayChange (i := .ldF x) rfl

end Sys2Proof

end

section

namespace Sys2Proof.Machine

/-! ## The vblank budget along instructions, steps and runs (spec/43_display.md R191, R271) -/

section budget
variable {s t : State}

/-- DRW is the one instruction that may change the budget (R30). -/
theorem vblank_mem_mayChange {i : Instr} : .vblank ∈ mayChange i ↔ ∃ x y n, i = .drw x y n := by
  cases i <;> simp [mayChange]

/-- No instruction changes the configuration (R33). -/
theorem cfg_notMem_mayChange (i : Instr) : .cfg ∉ mayChange i := by
  cases i <;> simp [mayChange]

theorem step_cfg (h : step s = .next t) : t.cfg = s.cfg := by
  have hcheck : s.checkPc.cfg = s.cfg := checkPc_keeps s .cfg (by decide)
  rcases step_cases s with ⟨_, e⟩ | ⟨w, _, ⟨_, _, e⟩ | ⟨i, _, e⟩⟩ <;> rw [e] at h
  · cases h
  · cases h; exact hcheck
  · have hexec : t.cfg = s.checkPc.cfg := exec_keepsAllBut_mayChange h .cfg (cfg_notMem_mayChange i)
    exact hexec.trans hcheck

/-- Under the VBLANK quirk DRW takes one unit from a budget that is not empty. -/
theorem vblank_of_execDrw_next (hq : s.cfg.quirks.vblank = true) {x y : RegId} {n : Fin 16}
    (h : execDrw x y n s = .next t) : (if s.vblank != 0 then 1 else 0) + t.vblank = s.vblank := by
  rcases execDrw_next h with ⟨rfl, _, hempty⟩ | ⟨hopen, rfl⟩
  · simp [hempty]
  · have hpos := hopen hq
    rw [if_pos (bne_iff_ne.2 hpos), if_pos hq]
    exact Nat.add_sub_cancel' (Nat.one_le_iff_ne_zero.2 hpos)

theorem drawsNext_of_decode_drw {w : Word} {x y : RegId} {n : Fin 16} (hw : s.checkPc.fetch = some w)
    (hd : decode w = .ok (.drw x y n)) : Claims.drawsNext s = (s.vblank != 0) := by
  simp only [Claims.drawsNext, hw, hd]

theorem drawsNext_of_decode_ne_drw {w : Word} (hw : s.checkPc.fetch = some w)
    (hd : ∀ x y n, decode w ≠ .ok (.drw x y n)) : Claims.drawsNext s = false := by
  unfold Claims.drawsNext
  rw [hw]
  dsimp only
  split
  next x y n e => exact absurd e (hd x y n)
  next => rfl

/-- One step under the VBLANK quirk takes from the budget what it draws. -/
theorem drawsNext_add_step_vblank (hq : s.cfg.quirks.vblank = true) (h : step s = .next t) :
    (if Claims.drawsNext s then 1 else 0) + t.vblank = s.vblank := by
  have hcheck : s.checkPc.vblank = s.vblank := checkPc_keeps s .vblank (by decide)
  have hcfg : s.checkPc.cfg = s.cfg := checkPc_keeps s .cfg (by decide)
  have kept (hdraws : Claims.drawsNext s = false) (ht : t.vblank = s.checkPc.vblank) :
      (if Claims.drawsNext s then 1 else 0) + t.vblank = s.vblank := by simp [hdraws, ht, hcheck]
  rcases step_cases s with ⟨_, e⟩ | ⟨w, hw, ⟨_, hd, e⟩ | ⟨i, hd, e⟩⟩ <;> rw [e] at h
  · cases h
  · cases h
    exact kept (drawsNext_of_decode_ne_drw hw (by simp [hd])) rfl
  by_cases hi : ∃ x y n, i = .drw x y n
  · obtain ⟨x, y, n, rfl⟩ := hi
    rw [drawsNext_of_decode_drw hw hd]
    have hdrw := vblank_of_execDrw_next (hcfg ▸ hq) h
    rwa [hcheck] at hdrw
  · have hne : ∀ x y n, decode w ≠ .ok (.drw x y n) := fun x y n hdrw =>
      hi ⟨x, y, n, Except.ok.inj (hd.symm.trans hdrw)⟩
    exact kept (drawsNext_of_decode_ne_drw hw hne)
      (exec_keepsAllBut_mayChange h .vblank (mt vblank_mem_mayChange.1 hi))

/-- A run of one more step that answers a state is a step and then the run. -/
theorem runSteps_succ_next {n : Nat} (h : runSteps (n + 1) s = .next t) :
    ∃ u, step s = .next u ∧ runSteps n u = .next t := by
  unfold runSteps at h
  split at h
  next u hu => exact ⟨u, hu, h⟩
  next => cases h
  next => cases h

theorem drawsIn_succ {n : Nat} {u : State} (h : step s = .next u) :
    Claims.drawsIn (n + 1) s = (if Claims.drawsNext s then 1 else 0) + Claims.drawsIn n u := by
  rw [Claims.drawsIn, h]

end budget

/-! ## The gate of DRW, and what a draw leaves alone (R191, R192) -/

section gate
variable {s : State}

theorem execDrw_of_empty (hq : s.cfg.quirks.vblank = true) (hb : s.vblank = 0) (x y : RegId)
    (n : Fin 16) : execDrw x y n s = .next s := by
  rw [execDrw, if_pos hq, if_pos hb, State.stall_eq]

/-- Through an open gate DRW draws, on the state whose budget it has taken from. -/
theorem execDrw_of_open (h : s.cfg.quirks.vblank = false ∨ 0 < s.vblank) (x y : RegId) (n : Fin 16) :
    execDrw x y n s =
      .next ((s.setVblank (if s.cfg.quirks.vblank then s.vblank - 1 else s.vblank)).draw x y n) := by
  by_cases hq : s.cfg.quirks.vblank = true
  · have hb : 0 < s.vblank := h.resolve_left (ne_false_of_eq_true hq)
    rw [execDrw, if_pos hq, if_neg hb.ne', if_pos hq]
  · rw [execDrw, if_neg hq, if_neg hq]
    rfl

end gate

section draw
variable (s : State) (x y : RegId) (n : Fin 16)

theorem draw_disp :
    (s.draw x y n).disp = (s.drawSprite (s.startX x) (s.startY y) n.val).disp := rfl

/-- VF is the flag of the sprite's collision; it is written last (R192). -/
theorem draw_reg_vf :
    (s.draw x y n).reg 15 = flagByte (s.drawSprite (s.startX x) (s.startY y) n.val).hit :=
  State.setReg_reg_same ..

theorem draw_reg_of_ne {z : RegId} (hz : z ≠ 15) : (s.draw x y n).reg z = s.reg z :=
  State.setReg_reg_ne _ _ _ hz

theorem draw_reg_vf_cases : (s.draw x y n).reg 15 = 0 ∨ (s.draw x y n).reg 15 = 1 := by
  rw [draw_reg_vf]
  cases (s.drawSprite (s.startX x) (s.startY y) n.val).hit with
  | false => exact .inl rfl
  | true => exact .inr rfl

theorem draw_reg_vf_eq_one_iff_hit :
    (s.draw x y n).reg 15 = 1 ↔ (s.drawSprite (s.startX x) (s.startY y) n.val).hit = true := by
  rw [draw_reg_vf]
  cases (s.drawSprite (s.startX x) (s.startY y) n.val).hit <;> decide

end draw

/-! ## The sprite's bits on a pixel (R192) -/

section sprite
variable {s : State} {px py : Nat}

/-- A claim's bit test on a byte that is in memory: the bit is set, and both axes put it on the pixel. -/
theorem spriteBitOn_of_byte {r : Nat} {b : Byte} (hb : s.readByte (s.ea r) = some b)
    (hx : px < s.cfg.width) (hy : py < s.cfg.height) (x y : RegId) (col : Nat) :
    Claims.spriteBitOn s x y px py r col = (spriteBit b col &&
      decide (onAxis s.cfg.quirks.wrap s.cfg.height (s.startY y + r) = some py) &&
      decide (onAxis s.cfg.quirks.wrap s.cfg.width (s.startX x + col) = some px)) := by
  have hb' : s.readByte (s.i.toNat + r) = some b := hb
  simp only [Claims.spriteBitOn, hb', spriteBit_eq, onAxis_eq_some hx, onAxis_eq_some hy, State.startX,
    State.startY]
  cases s.cfg.quirks.wrap <;> simp [Bool.and_comm, Bool.and_left_comm, beq_eq_decide]

theorem spriteBitOn_of_no_byte {r : Nat} (hb : s.readByte (s.ea r) = none) (x y : RegId) (col : Nat) :
    Claims.spriteBitOn s x y px py r col = false := by
  have hb' : s.readByte (s.i.toNat + r) = none := hb
  simp [Claims.spriteBitOn, hb']

/-- A sprite row draws a pixel's cell once for each of its set bits that land there. -/
theorem count_spriteRow (hx : px < s.cfg.width) (hy : py < s.cfg.height) (x y : RegId) (r : Nat) :
    (s.spriteRow (s.startX x) (s.startY y) r).count (cellIndex s.cfg px py) =
      (List.range 8).countP (Claims.spriteBitOn s x y px py r) := by
  unfold State.spriteRow
  cases hb : s.readByte (s.ea r) with
  | none =>
    have hbits := funext (spriteBitOn_of_no_byte (px := px) (py := py) hb x y)
    simp [hbits]
  | some b =>
    have hbits := funext (spriteBitOn_of_byte hb hx hy x y)
    cases hrow : onAxis s.cfg.quirks.wrap s.cfg.height (s.startY y + r) with
    | none => simp [hbits, hrow]
    | some yy => simp [hbits, hrow, count_rowCells (Nat.one_le_of_lt hx) hx]

/-- A sprite draws a pixel's cell once for each of its set bits that land there. -/
theorem count_spriteCells (hx : px < s.cfg.width) (hy : py < s.cfg.height) (x y : RegId) (n : Nat) :
    (s.spriteCells (s.startX x) (s.startY y) n).count (cellIndex s.cfg px py) =
      Claims.spriteBitsOn s x y n px py := by
  have hrows := funext (count_spriteRow hx hy x y)
  rw [State.spriteCells, List.count_flatMap, Claims.spriteBitsOn]
  exact congrArg (fun f => ((List.range n).map f).sum) hrows

/-- Where a sprite's bits land is decided by the sprite, the position and the configuration. -/
theorem spriteBitsOn_congr {u : State} {x y : RegId} (hcfg : u.cfg = s.cfg) (hmem : u.mem = s.mem)
    (hi : u.i = s.i) (hx : u.reg x = s.reg x) (hy : u.reg y = s.reg y) (n px py : Nat) :
    Claims.spriteBitsOn u x y n px py = Claims.spriteBitsOn s x y n px py := by
  have hbits : Claims.spriteBitOn u x y px py = Claims.spriteBitOn s x y px py := by
    funext r col
    rw [Claims.spriteBitOn, hcfg, hi, hx, hy, readByte_congr hmem hcfg, Claims.spriteBitOn]
  rw [Claims.spriteBitsOn, hbits, Claims.spriteBitsOn]

end sprite

/-! ## A draw, pixel by pixel (R192) -/

section pixels
variable {s : State}

/-- The cells of the display buffer are those of the screen's pixels (R39). -/
theorem lt_width_mul_height_iff {cfg : Config} {j : Nat} :
    j < cfg.width * cfg.height ↔ ∃ px py, px < cfg.width ∧ py < cfg.height ∧ cellIndex cfg px py = j := by
  constructor
  · intro hj
    have hw : 0 < cfg.width := Nat.pos_of_ne_zero fun h => by simp [h] at hj
    exact ⟨j % cfg.width, j / cfg.width, Nat.mod_lt j hw, Nat.div_lt_of_lt_mul hj,
      Nat.div_add_mod' j cfg.width⟩
  · rintro ⟨px, py, hx, hy, rfl⟩
    calc cellIndex cfg px py < py * cfg.width + cfg.width := Nat.add_lt_add_left hx _
      _ = cfg.width * (py + 1) := by ring
      _ ≤ cfg.width * cfg.height := Nat.mul_le_mul_left _ hy

theorem draw_disp_length (s : State) (x y : RegId) (n : Fin 16) :
    (s.draw x y n).disp.length = s.disp.length := by
  rw [draw_disp, State.drawSprite, foldl_flip_length]

theorem draw_displayLegal (hd : displayLegal s.cfg s.disp) (x y : RegId) (n : Fin 16) :
    displayLegal s.cfg (s.draw x y n).disp :=
  ⟨(draw_disp_length s x y n).trans hd.1, foldl_flip_pixels _ hd.2⟩

/-- A draw flips a pixel exactly when an odd number of the sprite's set bits land on it. -/
theorem draw_pixel {px py : Nat} {a : Byte} (hx : px < s.cfg.width) (hy : py < s.cfg.height)
    (ha : s.disp[cellIndex s.cfg px py]? = some a) (x y : RegId) (n : Fin 16) :
    (s.draw x y n).disp[cellIndex s.cfg px py]? =
      some (if Claims.spriteBitsOn s x y n.val px py % 2 = 1 then a ^^^ 1 else a) := by
  rw [draw_disp, State.drawSprite, foldl_flip_getElem? _ ha, count_spriteCells hx hy]

/-- A pixel after `k` flips. -/
theorem flipped_pixel_toNat {a : Byte} (ha : a = 0 ∨ a = 1) (k : Nat) :
    (if k % 2 = 1 then a ^^^ 1 else a).toNat = (a.toNat + k) % 2 := by
  rcases ha with rfl | rfl <;> split <;> simp <;> omega

/-- VF is 1 after a draw exactly when some pixel is hit twice, or is hit and was 1. -/
theorem draw_reg_vf_eq_one_iff (hd : displayLegal s.cfg s.disp) (x y : RegId) (n : Fin 16) :
    (s.draw x y n).reg 15 = 1 ↔ ∃ px py, px < s.cfg.width ∧ py < s.cfg.height ∧
      (2 ≤ Claims.spriteBitsOn s x y n.val px py ∨
        (1 ≤ Claims.spriteBitsOn s x y n.val px py ∧ s.disp[cellIndex s.cfg px py]? = some 1)) := by
  obtain ⟨hlen, hpixels⟩ := hd
  rw [draw_reg_vf_eq_one_iff_hit, State.drawSprite, foldl_flip_hit _ hpixels, hlen]
  constructor
  · rintro (h | ⟨j, hj, h⟩)
    · cases h
    · obtain ⟨px, py, hx, hy, rfl⟩ := lt_width_mul_height_iff.1 hj
      rw [count_spriteCells hx hy] at h
      exact ⟨px, py, hx, hy, h⟩
  · rintro ⟨px, py, hx, hy, h⟩
    rw [← count_spriteCells hx hy] at h
    exact .inr ⟨_, lt_width_mul_height_iff.2 ⟨px, py, hx, hy, rfl⟩, h⟩

theorem draw_reg_vf_of_no_bit (hd : displayLegal s.cfg s.disp) {x y : RegId} {n : Fin 16}
    (h : ∀ px py, px < s.cfg.width → py < s.cfg.height → Claims.spriteBitsOn s x y n.val px py = 0) :
    (s.draw x y n).reg 15 = 0 := by
  refine (draw_reg_vf_cases s x y n).resolve_right fun hone => ?_
  obtain ⟨px, py, hx, hy, hhit⟩ := (draw_reg_vf_eq_one_iff hd x y n).1 hone
  have := h px py hx hy
  omega

end pixels

/-! ## A second draw of the same sprite on the display that the first one left (R192, R193) -/

section again
variable {s u : State} {x y : RegId} {n : Fin 16} (hd : displayLegal s.cfg s.disp) (hcfg : u.cfg = s.cfg)
  (hdisp : u.disp = (s.draw x y n).disp)
  (hbits : ∀ px py, Claims.spriteBitsOn u x y n.val px py = Claims.spriteBitsOn s x y n.val px py)
include hd hcfg hdisp hbits

/-- Each pixel is flipped as often again, and so an even number of times in all. -/
theorem draw_again_disp : (u.draw x y n).disp = s.disp := by
  obtain ⟨hlen, _⟩ := hd
  refine List.ext_getElem? fun j => ?_
  by_cases hj : j < s.disp.length
  · obtain ⟨a, ha⟩ : ∃ a, s.disp[j]? = some a := ⟨_, List.getElem?_eq_getElem hj⟩
    rw [hlen] at hj
    obtain ⟨px, py, hx, hy, rfl⟩ := lt_width_mul_height_iff.1 hj
    have hfirst := draw_pixel hx hy ha x y n
    rw [← hcfg] at hx hy hfirst ha ⊢
    rw [← hdisp] at hfirst
    rw [draw_pixel hx hy hfirst x y n, hbits, ha]
    split <;> simp
  · rw [List.getElem?_eq_none (by rw [draw_disp_length, hdisp, draw_disp_length]; omega),
      List.getElem?_eq_none (by omega)]

/-- A set bit on a pixel that was 0 collides the second time: with the 1 it left there, or with another
set bit on the same pixel (R193). -/
theorem draw_again_reg_vf {px py : Nat} (hx : px < s.cfg.width) (hy : py < s.cfg.height)
    (hbit : 1 ≤ Claims.spriteBitsOn s x y n.val px py)
    (h0 : s.disp[cellIndex s.cfg px py]? = some 0) : (u.draw x y n).reg 15 = 1 := by
  have hdu : displayLegal u.cfg u.disp := hcfg ▸ hdisp ▸ draw_displayLegal hd x y n
  have hfirst := draw_pixel hx hy h0 x y n
  rw [← hcfg] at hx hy hfirst
  refine (draw_reg_vf_eq_one_iff hdu x y n).2 ⟨px, py, hx, hy, ?_⟩
  rw [hbits, hdisp, hfirst]
  rcases Nat.lt_or_ge 1 (Claims.spriteBitsOn s x y n.val px py) with htwice | honce
  · exact .inl htwice
  · have hone : Claims.spriteBitsOn s x y n.val px py = 1 := le_antisymm honce hbit
    exact .inr ⟨hbit, by rw [hone]; rfl⟩

end again

end Sys2Proof.Machine

namespace Sys2Proof

open Machine

/-! ## The statements about the display (spec/43_display.md) -/

/-- Settles O46, by induction on the run: each step takes from the budget what it draws. -/
theorem vblankBudgetIsAnAllowanceOfDraws : Obligations.VblankBudgetIsAnAllowanceOfDraws := by
  intro n
  induction n with
  | zero => intro s t _ h; cases h; exact Nat.zero_add _
  | succ n ih =>
    intro s t hq h
    obtain ⟨u, hu, hrun⟩ := runSteps_succ_next h
    have hqu : u.cfg.quirks.vblank = true := by rw [step_cfg hu, hq]
    rw [drawsIn_succ hu, Nat.add_assoc, ih u t hqu hrun, drawsNext_add_step_vblank hq hu]

/-- Settles O42: CLS sets the display to as many zeros as the screen has pixels. -/
theorem clearScreenZeroesEveryPixel : Obligations.ClearScreenZeroesEveryPixel := fun _ =>
  ⟨_, rfl, List.length_replicate, fun _ => List.eq_of_mem_replicate, rfl,
    exec_keepsAllBut_mayChange (i := .cls) rfl⟩

/-- Settles O43: the gate is shut or open, and a draw writes VF alone of the registers. -/
theorem drawIsGatedByTheBudget : Obligations.DrawIsGatedByTheBudget := by
  refine fun x y n s => ⟨fun hq hb => execDrw_of_empty hq hb x y n, fun hopen => ?_⟩
  have hdraw : exec (.drw x y n) s = _ := execDrw_of_open hopen x y n
  exact ⟨_, hdraw, rfl, fun z hz => draw_reg_of_ne _ x y n (List.ne_of_not_mem_cons hz), rfl,
    exec_keepsAllBut_mayChange hdraw⟩

/-- Settles O44: the draw's pixels and its flag are those of the state after the budget's unit is taken,
whose display and sprite are the same. -/
theorem drawFlipsTheSpritesPixels : Obligations.DrawFlipsTheSpritesPixels := by
  intro x y n s hs hopen
  obtain ⟨hlen, hpixels⟩ := hs.disp
  refine ⟨_, execDrw_of_open hopen x y n, (draw_disp_length _ x y n).trans hlen, fun px py hx hy => ?_,
    draw_reg_vf_cases _ x y n, draw_reg_vf_eq_one_iff (hs.setVblank _).disp x y n⟩
  have hcell : py * s.cfg.width + px < s.disp.length := by
    rw [hlen]; exact lt_width_mul_height_iff.2 ⟨px, py, hx, hy, rfl⟩
  have ha := List.getElem?_eq_getElem hcell
  exact ⟨_, _, ha, draw_pixel (s := s.setVblank _) hx hy ha x y n,
    flipped_pixel_toNat (hpixels _ (List.getElem_mem hcell)) _⟩

/-- Settles O45: the second draw finds the display of the first, and the sprite's bits where they were. -/
theorem drawingTwiceRestoresTheDisplay : Obligations.DrawingTwiceRestoresTheDisplay := by
  intro x y n s t u hs hfirst hopen hdisp hcfg hmem hi hx hy hopen'
  cases (execDrw_of_open hopen x y n).symm.trans hfirst
  have hbits := spriteBitsOn_congr hcfg hmem hi hx hy n.val
  have hdu : displayLegal u.cfg u.disp := hcfg ▸ hdisp ▸ draw_displayLegal (hs.setVblank _).disp x y n
  refine ⟨_, execDrw_of_open hopen' x y n, draw_again_disp (s := s.setVblank _) hs.disp hcfg hdisp hbits,
    ?_, fun hnone => ?_⟩
  · rintro ⟨px, py, hpx, hpy, hbit, h0⟩
    exact draw_again_reg_vf (s := s.setVblank _) hs.disp hcfg hdisp hbits hpx hpy hbit h0
  · refine draw_reg_vf_of_no_bit (s := u.setVblank _) hdu fun px py hpx hpy => (hbits px py).trans ?_
    rw [State.setVblank_cfg, hcfg] at hpx hpy
    exact hnone px py hpx hpy

end Sys2Proof

end

section

namespace Sys2Proof.Machine

/-! ## The bytes of the PRNG word, and the default PRNG_NEXT (spec/44_timers_keys_random.md R210, R212) -/

theorem prngByte_toNat (p : BitVec 32) (k : Nat) : (prngByte p k).toNat = p.toNat / 256 ^ k % 256 := by
  rw [prngByte, BitVec.extractLsb'_toNat, Nat.shiftRight_eq_div_pow, Nat.pow_mul]

/-- The output is the top byte of the word (R210 (c)). -/
theorem prngOutput_toNat (p : BitVec 32) : (prngOutput p).toNat = p.toNat / 2 ^ 24 := by
  rw [prngOutput, prngByte_toNat]
  omega

theorem append_byte_toNat {w : Nat} (high : BitVec w) (low : Byte) :
    (high ++ low).toNat = high.toNat * 256 + low.toNat := by
  rw [BitVec.toNat_append, ← Nat.shiftLeft_add_eq_or_of_lt low.isLt, Nat.shiftLeft_eq]

/-- The four bytes of a word written as `b3 ++ b2 ++ b1 ++ b0` (10_state.md R31). -/
theorem prngByte_append (b3 b2 b1 b0 : Byte) :
    prngByte (b3 ++ b2 ++ b1 ++ b0) 0 = b0 ∧ prngByte (b3 ++ b2 ++ b1 ++ b0) 1 = b1 ∧
    prngByte (b3 ++ b2 ++ b1 ++ b0) 2 = b2 ∧ prngByte (b3 ++ b2 ++ b1 ++ b0) 3 = b3 := by
  have hword : (b3 ++ b2 ++ b1 ++ b0).toNat =
      ((b3.toNat * 256 + b2.toNat) * 256 + b1.toNat) * 256 + b0.toNat := by
    rw [append_byte_toNat, append_byte_toNat, append_byte_toNat]
  refine ⟨?_, ?_, ?_, ?_⟩ <;> apply BitVec.eq_of_toNat_eq <;> rw [prngByte_toNat, hword] <;> omega

/-- Three bytes move down one place and the fourth is new (R212). -/
theorem xorshift_bytes (p : BitVec 32) :
    let t := prngByte p 0 ^^^ (prngByte p 0 <<< 4)
    prngByte (xorshift p) 0 = prngByte p 1 ∧ prngByte (xorshift p) 1 = prngByte p 2 ∧
    prngByte (xorshift p) 2 = prngByte p 3 ∧
    prngByte (xorshift p) 3 = prngByte p 3 ^^^ t ^^^ (prngByte p 3 >>> 1) ^^^ (t <<< 1) :=
  prngByte_append _ _ _ _

/-- R212's byte t, of the oldest byte `b`, as a number. -/
theorem xorshift_t_toNat (b : Byte) : (b ^^^ (b <<< 4)).toNat = (b.toNat ^^^ 16 * b.toNat) % 256 := by
  rw [BitVec.toNat_xor, BitVec.toNat_shiftLeft, Nat.shiftLeft_eq, Nat.mul_comm,
    Nat.xor_mod_two_pow (n := 8), Nat.mod_eq_of_lt b.isLt]

/-- R212's newest byte, of the byte `n` before it and the byte t, as a number. -/
theorem xorshift_newest_toNat (n t : Byte) :
    (n ^^^ t ^^^ (n >>> 1) ^^^ (t <<< 1)).toNat =
      (n.toNat ^^^ t.toNat ^^^ n.toNat / 2 ^^^ 2 * t.toNat) % 256 := by
  rw [BitVec.toNat_xor, byte_shiftLeft_one_toNat, Nat.xor_mod_two_pow (n := 8),
    ← byte_shiftRight_one_toNat, ← BitVec.toNat_xor, ← BitVec.toNat_xor,
    Nat.mod_eq_of_lt (BitVec.isLt _)]

/-! ## The key wait (spec/44_timers_keys_random.md R206) -/

theorem execLdVxK_of_no_key {s : State} (h : ∀ k : KeyId, s.key[k] = false) (x : RegId) :
    execLdVxK x s = .next s := by
  rw [execLdVxK, leastKey_eq_none.2 h]
  rfl

theorem execLdVxK_of_key {s : State} {k : KeyId} (hk : s.key[k] = true)
    (hbelow : ∀ j : KeyId, j < k → s.key[j] = false) (x : RegId) :
    execLdVxK x s = .next (s.setReg x (keyByte k)).advance := by
  rw [execLdVxK, leastKey_eq_some.2 ⟨hk, hbelow⟩]

end Sys2Proof.Machine

namespace Sys2Proof

open Machine

/-! ## The statements about timers, keys and random numbers (spec/44_timers_keys_random.md) -/

/-- Settles O48: either no key is down and the wait stalls, or it writes the lowest one's number. -/
theorem waitKeyTakesTheLowestKeyDown : Obligations.WaitKeyTakesTheLowestKeyDown := by
  refine fun x s => ⟨fun hnone => execLdVxK_of_no_key hnone x, fun k hk hbelow => ?_⟩
  obtain ⟨hreg, frame⟩ := setReg_advance_spec s x (keyByte k)
  exact ⟨_, execLdVxK_of_key hk hbelow x, by rw [hreg, keyByte_toNat], frame⟩

/-- Settles O50: the word is written byte by byte, and each byte is read off as a number. -/
theorem defaultPrngIsTheFourByteXorshift : Obligations.DefaultPrngIsTheFourByteXorshift := by
  rintro p r rfl
  obtain ⟨h0, h1, h2, h3⟩ := xorshift_bytes p
  simp only [prngNext, ← prngByte_toNat]
  refine ⟨congrArg _ h0, congrArg _ h1, congrArg _ h2, ?_⟩
  rw [h3, h2, xorshift_newest_toNat, xorshift_t_toNat]

/-- Settles O47: a byte is copied into a register, DT or ST. -/
theorem timerMovesCopyOneByte : Obligations.TimerMovesCopyOneByte := fun x s =>
  ⟨⟨_, rfl, setReg_advance_spec s x s.dt⟩,
    ⟨_, rfl, rfl, rfl, (setDt_keeps s (s.reg x)).cons (setPc_keeps _ _)⟩,
    ⟨_, rfl, rfl, rfl, (setSt_keeps s (s.reg x)).cons (setPc_keeps _ _)⟩⟩

/-- Settles O49: the output is the new word's top byte, and PRNG_NEXT keeps the zero word under every rule. -/
theorem randomIsTheMaskedFourthByte : Obligations.RandomIsTheMaskedFourthByte := by
  intro x nn s
  obtain ⟨hreg, hregs, hpc, -⟩ := setReg_advance_spec (s.setPrng (prngNext s.cfg.prngRule s.prng)) x
    (prngOutput (prngNext s.cfg.prngRule s.prng) &&& nn)
  refine ⟨_, rfl, rfl, ?_, fun h0 => ?_, hregs, hpc, exec_keepsAllBut_mayChange (i := .rnd x nn) rfl⟩
  · rw [← prngOutput_toNat, ← BitVec.toNat_and]
    exact congrArg BitVec.toNat hreg
  · have hzero : prngNext s.cfg.prngRule s.prng = 0 := by rw [h0, prngNext_zero]
    exact ⟨hzero, hreg.trans (by rw [hzero]; exact BitVec.zero_and)⟩

end Sys2Proof

end

section

namespace Sys2Proof.Machine

/-! ## Steps that are decided by the word at `pc` (spec/60_exceptions.md R220 to R226) -/

section step
variable {s t : State} {high low : Byte}

/-- A word at `pc` that decodes is executed, where `pc` stands (R222, R223). -/
theorem step_of_decode_ok {i : Instr} (hhigh : s.readByte s.pc.toNat = some high)
    (hlow : s.readByte (s.pc.toNat + 1) = some low) (hd : decode (high ++ low) = .ok i) :
    step s = exec i s := by
  rw [step_of_bytes hhigh hlow, wordOfBytes, hd]

/-- A word at `pc` that does not decode stalls (R226). -/
theorem step_of_decode_error {e : Unrecognised} (hhigh : s.readByte s.pc.toNat = some high)
    (hlow : s.readByte (s.pc.toNat + 1) = some low) (hd : decode (high ++ low) = .error e) :
    step s = .next s := by
  rw [step_of_bytes hhigh hlow, wordOfBytes, hd]

/-- CHECK of a `pc` beyond the last word (R221). -/
theorem checkPc_of_beyond (h : s.cfg.memSize < s.pc.toNat + 2) : s.checkPc = s.setPc 0 := by
  rcases checkPc_cases s with ⟨hin, _⟩ | ⟨_, e⟩
  · omega
  · exact e

/-- CHECK leaves 0x000 alone, whether it keeps that `pc` or forces it (R221). -/
theorem checkPc_setPc_zero (s : State) : (s.setPc 0).checkPc = s.setPc 0 := by
  rcases checkPc_cases (s.setPc 0) with ⟨_, e⟩ | ⟨_, e⟩ <;> exact e

/-- All of a step but CHECK sees only the state that CHECK leaves (R220). -/
theorem step_eq_of_checkPc_eq (h : s.checkPc = t.checkPc) : step s = step t := by
  unfold step
  rw [h]

/-- A jump to 0x000 stored at 0x000 holds the machine there (R224). -/
theorem halted_of_jump_at_zero (hpc : s.pc = 0) (hhigh : s.readByte 0 = some high)
    (hlow : s.readByte 1 = some low) (hd : decode (high ++ low) = .ok (.jp 0)) : Halted s := by
  have hstep : step s = exec (.jp 0) s :=
    step_of_decode_ok (by rw [hpc]; exact hhigh) (by rw [hpc]; exact hlow) hd
  exact hstep.trans (congrArg Host.Outcome.next (setPc_of_pc_eq hpc))

/-- The trap word 10 00 is a jump to 0x000 (20_memory.md R65). -/
theorem decode_trapWord : decode ((0x10 : Byte) ++ (0x00 : Byte)) = .ok (.jp 0) := by decide

end step

/-! ## Which instructions leave the machine as it is (R228) -/

section halted
variable {s : State}

theorem pc_add_two_ne_self (a : Word) : a + 2 ≠ a := by bv_omega

theorem pc_add_four_ne_self (a : Word) : a + 4 ≠ a := by bv_omega

/-- The condition under which an instruction changes nothing: a jump to itself, a wait, a fault at
0x000. -/
def StaysAt (s : State) : Instr → Prop
  | .jp nnn => nnn.toNat = s.pc.toNat
  | .jpV0 nnn => ∃ k : RegId, k.val = (if s.cfg.quirks.bxnn then nnn.toNat / 256 else 0) ∧
      nnn.toNat + (s.reg k).toNat = s.pc.toNat
  | .ldVxK _ => ∀ k : KeyId, s.key[k] = false
  | .drw _ _ _ => s.cfg.quirks.vblank = true ∧ s.vblank = 0
  | .call _ => 16 ≤ s.sp.toNat ∧ s.pc = 0
  | .ret => s.sp = 0 ∧ s.pc = 0
  | _ => False

/-- A write of `pc` changes nothing exactly when it writes what stands there. -/
theorem next_setPc_eq_self_iff {a : Word} :
    (.next (s.setPc a) : Result) = .next s ↔ a.toNat = s.pc.toNat := by
  refine ⟨fun h => ?_, fun h => congrArg _ (setPc_of_pc_eq (BitVec.eq_of_toNat_eq h.symm))⟩
  exact congrArg (fun u : State => u.pc.toNat) (Host.Outcome.next.inj h)

theorem execJpV0_eq_self_iff {nnn : BitVec 12} :
    execJpV0 nnn s = .next s ↔ StaysAt s (.jpV0 nnn) := by
  rw [execJpV0, next_setPc_eq_self_iff, zextAddr_add_zextByte_toNat]
  refine ⟨fun h => ⟨_, jumpOffsetReg_val _ nnn, h⟩, fun ⟨k, hk, h⟩ => ?_⟩
  obtain rfl : k = jumpOffsetReg s.cfg.quirks nnn := Fin.ext (hk.trans (jumpOffsetReg_val _ nnn).symm)
  exact h

/-- A CALL that pushes moves `sp`, so only a faulting one can stay (R123). -/
theorem execCall_eq_self_iff {nnn : BitVec 12} :
    execCall nnn s = .next s ↔ 16 ≤ s.sp.toNat ∧ s.pc = 0 := by
  refine ⟨fun h => ?_, fun ⟨hsp, hpc⟩ => ?_⟩
  · rcases execCall_next h with ⟨_, e⟩ | ⟨hsp, e⟩
    · have hsp : s.sp = s.sp + 1 := congrArg State.sp e
      bv_omega
    · exact ⟨hsp, congrArg State.pc e⟩
  · rw [execCall_of_ge nnn hsp, setPc_of_pc_eq hpc]

/-- A RET that pops moves `sp`, so only a faulting one can stay (R122). -/
theorem execRet_eq_self_iff : execRet s = .next s ↔ s.sp = 0 ∧ s.pc = 0 := by
  refine ⟨fun h => ?_, fun ⟨hsp, hpc⟩ => ?_⟩
  · rcases execRet_next h with ⟨_, _, e⟩ | ⟨hsp, e⟩
    · have hsp : s.sp = s.sp - 1 := congrArg State.sp e
      bv_omega
    · exact ⟨hsp, congrArg State.pc e⟩
  · rw [execRet_of_zero hsp, setPc_of_pc_eq hpc]

/-- An instruction leaves the machine as it is exactly under its condition: all others move `pc`. -/
theorem exec_eq_self_iff {i : Instr} : exec i s = .next s ↔ StaysAt s i := by
  have moves (h : exec i s = .next s) := pcMovesOnlyAsListed i s s h
  cases i with
  | jp nnn => exact next_setPc_eq_self_iff.trans (by rw [zextAddr_toNat]; rfl)
  | jpV0 nnn => exact execJpV0_eq_self_iff
  | call nnn => exact execCall_eq_self_iff
  | ret => exact execRet_eq_self_iff
  | ldVxK x =>
    refine ⟨fun h => ?_, fun h => execLdVxK_of_no_key h x⟩
    exact (moves h).elim (fun e => absurd e.symm (pc_add_two_ne_self _)) And.right
  | drw x y n =>
    refine ⟨fun h => ?_, fun ⟨hq, hb⟩ => execDrw_of_empty hq hb x y n⟩
    exact (moves h).elim (fun e => absurd e.symm (pc_add_two_ne_self _)) And.right
  | seImm _ _ | sneImm _ _ | seReg _ _ | sneReg _ _ | skp _ | sknp _ =>
    refine ⟨fun h => ?_, False.elim⟩
    rcases moves h with e | e
    · exact pc_add_two_ne_self _ (congrArg State.pc e).symm
    · exact pc_add_four_ne_self _ (congrArg State.pc e).symm
  | _ => exact ⟨fun h => pc_add_two_ne_self _ (moves h).symm, False.elim⟩

end halted

/-! ## Runs of steps (R226, R249) -/

section runs
variable {s t u : State}

theorem runSteps_succ_of_step (h : step s = .next u) (n : Nat) : runSteps (n + 1) s = runSteps n u := by
  rw [runSteps, h]

/-- A halted machine stays as it is however long it runs (R228). -/
theorem runSteps_of_halted (h : Halted s) (n : Nat) : runSteps n s = .next s := by
  induction n with
  | zero => rfl
  | succ n ih => rw [runSteps_succ_of_step h, ih]

/-- The host's run of a core: one step, and then the run that is left, or the stop. -/
theorem core_run_succ (M : Host.Core) (n : Nat) (s : M.State) :
    (∀ u, M.step s = .next u → M.run (n + 1) s = M.run n u) ∧
    (∀ r, M.step s = .fault r → M.run (n + 1) s = .fault r) ∧
    (∀ r, M.step s = .refused r → M.run (n + 1) s = .refused r) := by
  refine ⟨fun u h => ?_, fun r h => ?_, fun r h => ?_⟩ <;> rw [Host.Core.run, h]

/-- The block's run of steps is the host's run of the core. -/
theorem runSteps_eq_core_run (n : Nat) (s : State) : runSteps n s = Host.Core.run Sys2Proof.core n s := by
  induction n generalizing s with
  | zero => rfl
  | succ n ih =>
    obtain ⟨onNext, onFault, onRefused⟩ := core_run_succ Sys2Proof.core n s
    rw [runSteps]
    cases hstep : step s with
    | next u => exact (ih u).trans (onNext u hstep).symm
    | fault r => exact (onFault r hstep).symm
    | refused r => exact (onRefused r hstep).symm

end runs

/-! ## No instruction of a legal machine stops (R222, R225 to R227) -/

section answers
variable {s : State}

/-- RET alone can stop, at an `sp` above 16. -/
theorem exec_answers (hsp : spLegal s.sp) (i : Instr) : ∃ t, exec i s = .next t := by
  cases i with
  | ret =>
    by_cases h0 : s.sp = 0
    · exact ⟨_, execRet_of_zero h0⟩
    · have hpos : s.sp.toNat ≠ 0 := fun e => h0 (BitVec.eq_of_toNat_eq e)
      exact ⟨_, execRet_of_succ ⟨s.sp.toNat - 1, by omega⟩ (by simp only; omega)⟩
  | call nnn =>
    rcases Nat.lt_or_ge s.sp.toNat 16 with h | h
    · exact ⟨_, execCall_of_lt nnn h⟩
    · exact ⟨_, execCall_of_ge nnn h⟩
  | drw x y n =>
    by_cases hopen : s.cfg.quirks.vblank = false ∨ 0 < s.vblank
    · exact ⟨_, execDrw_of_open hopen x y n⟩
    · obtain ⟨hq, hb⟩ := not_or.1 hopen
      exact ⟨_, execDrw_of_empty (Bool.of_not_eq_false hq) (by omega) x y n⟩
  | ldVxK x =>
    change ∃ t, execLdVxK x s = .next t
    unfold execLdVxK
    split <;> exact ⟨_, rfl⟩
  | _ => exact ⟨_, rfl⟩

/-- After CHECK a memory in range holds the word to fetch. -/
theorem step_answers (hs : s.Inv) : ∃ t, step s = .next t := by
  obtain ⟨hsize, _⟩ := hs.cfg
  have hsize' : s.checkPc.cfg.memSize = s.cfg.memSize := congrArg _ (checkPc_keeps s .cfg (by decide))
  obtain ⟨w, hw⟩ := fetch_isSome (s := s.checkPc) (by rw [hsize']; exact checkPc_inRange (by omega))
  rcases step_cases s with ⟨hnone, _⟩ | ⟨_, _, ⟨_, _, e⟩ | ⟨i, _, e⟩⟩
  · cases hw.symm.trans hnone
  · exact ⟨_, e⟩
  · rw [e]; exact exec_answers hs.checkPc.sp i

end answers

end Sys2Proof.Machine

namespace Sys2Proof

open Machine

/-! ## The statements about steps, faults and stalls (spec/60_exceptions.md) -/

/-- Settles O18: the invariant passes along each transaction, and along a frame step by step. -/
theorem transactionsKeepTheInvariant : Obligations.TransactionsKeepTheInvariant :=
  fun _ _ _ hb h => hb.transact h

/-- Settles O8: a word that exists passes CHECK, and its bytes are the ones decoded. -/
theorem stepRunsTheDecodedInstruction : Obligations.StepRunsTheDecodedInstruction :=
  fun _ _ _ _ hhigh hlow hd => step_of_decode_ok hhigh hlow hd

/-- Settles O9: each of the three causes makes the step the identity, so every run is. -/
theorem stalledStepStallsAgain : Obligations.StalledStepStallsAgain := by
  intro s high low hhigh hlow hstall n
  apply runSteps_of_halted
  cases hd : decode (high ++ low) with
  | error e => exact step_of_decode_error hhigh hlow hd
  | ok i =>
    rw [hd] at hstall
    refine (step_of_decode_ok hhigh hlow hd).trans ?_
    cases i with
    | ldVxK x => exact execLdVxK_of_no_key hstall x
    | drw x y n => exact execDrw_of_empty hstall.1 hstall.2 x y n
    | _ => exact hstall.elim

/-- Settles O10: CHECK gives both machines the same state, and the trap word jumps to where it stands. -/
theorem pcOutOfRangeGoesToTheFaultAddress : Obligations.PcOutOfRangeGoesToTheFaultAddress := by
  intro s _ hpc
  have hcheck : s.checkPc = s.setPc 0 := checkPc_of_beyond (by omega)
  have hstep : step s = step (s.setPc 0) := step_eq_of_checkPc_eq (hcheck.trans (checkPc_setPc_zero s).symm)
  refine ⟨hstep, fun hhigh hlow => ⟨s.setPc 0, hstep.trans ?_, rfl, setPc_keeps s 0⟩⟩
  exact halted_of_jump_at_zero (s := s.setPc 0) rfl hhigh hlow decode_trapWord

/-- Settles O12: a fault is the write of 0 to `pc`, under each of its causes. -/
theorem faultOnlySetsPcToZero : Obligations.FaultOnlySetsPcToZero := by
  intro kind s _
  refine ⟨rfl, setPc_keeps s 0, fun high low hhigh hlow => ⟨?_, ?_⟩, fun nnn => execCall_of_ge nnn,
    execRet_of_zero, fun hpc => checkPc_of_beyond (by omega)⟩
  · exact checkPc_fetch_eq (s := s.raiseFault kind) hhigh hlow
  · exact halted_of_jump_at_zero (s := s.raiseFault kind) rfl hhigh hlow

/-- Settles O13: the fetch succeeds after CHECK, and `sp` at most 16 keeps RET from stopping. -/
theorem everyStepAnswersANextState : Obligations.EveryStepAnswersANextState := fun _ hs => step_answers hs

/-- Settles O14: the step is the stall or the instruction of the word at `pc`, and each instruction stays
under its own condition. -/
theorem haltedMachinesAreTheListedOnes : Obligations.HaltedMachinesAreTheListedOnes := by
  intro s high low hhigh hlow
  refine ⟨?_, fun hpc h1 h2 => ?_⟩
  · cases hd : decode (high ++ low) with
    | error e => exact iff_of_true (step_of_decode_error hhigh hlow hd) trivial
    | ok i =>
      rw [Halted, step_of_decode_ok hhigh hlow hd, exec_eq_self_iff]
      cases i <;> exact Iff.rfl
  · subst h1 h2
    rw [hpc] at hhigh hlow
    exact halted_of_jump_at_zero hpc hhigh hlow decode_trapWord

/-- Settles O15, by induction on the length of the run. -/
theorem stepFrameIsThatManySteps : Obligations.StepFrameIsThatManySteps :=
  fun s => runSteps_eq_core_run s.cfg.cyclesPerFrame s

end Sys2Proof

end

section

namespace Sys2Proof.Machine

/-! ## Who moves a timer or the budget in steps and runs (R237) -/

section timers
variable {s t : State} {p : Part}

theorem eq_ldDtVx_of_dt_mem_mayChange (i : Instr) (h : .dt ∈ mayChange i) : ∃ x, i = .ldDtVx x := by
  cases i <;> simp_all [mayChange]

theorem eq_ldStVx_of_st_mem_mayChange (i : Instr) (h : .st ∈ mayChange i) : ∃ x, i = .ldStVx x := by
  cases i <;> simp_all [mayChange]

/-- A step moves a part other than `pc` only by an instruction that may change it. -/
theorem step_keeps_or_changes (hp : p ≠ .pc) (h : step s = .next t) :
    Keeps s t p ∨ ∃ w i, s.checkPc.fetch = some w ∧ decode w = .ok i ∧ p ∈ mayChange i ∧
      exec i s.checkPc = .next t := by
  have hcheck : Keeps s s.checkPc p := checkPc_keeps s p (by simpa using hp)
  rcases step_cases s with ⟨_, e⟩ | ⟨w, hw, ⟨_, _, e⟩ | ⟨i, hd, e⟩⟩ <;> rw [e] at h
  · cases h
  · cases h; exact .inl hcheck
  · by_cases hi : p ∈ mayChange i
    · exact .inr ⟨w, i, hw, hd, hi, h⟩
    · exact .inl (hcheck.trans (exec_keepsAllBut_mayChange h p hi))

/-- A part that one kind of instruction alone may change moves, in a step, only where that instruction
runs. -/
theorem step_keeps_or_runs {mk : RegId → Instr} (hp : p ≠ .pc)
    (hmk : ∀ i, p ∈ mayChange i → ∃ x, i = mk x) (h : step s = .next t) :
    Keeps s t p ∨ ∃ w x, s.checkPc.fetch = some w ∧ decode w = .ok (mk x) ∧
      exec (mk x) s.checkPc = .next t := by
  refine (step_keeps_or_changes hp h).imp id fun ⟨w, i, hw, hd, hi, hexec⟩ => ?_
  obtain ⟨x, rfl⟩ := hmk i hi
  exact ⟨w, x, hw, hd, hexec⟩

/-- And in a run of steps only where one of them runs that instruction. -/
theorem runSteps_keeps_or_runs {mk : RegId → Instr} {n : Nat} (hp : p ≠ .pc)
    (hmk : ∀ i, p ∈ mayChange i → ∃ x, i = mk x) (h : runSteps n s = .next t) :
    Keeps s t p ∨ ∃ k u w x, k < n ∧ runSteps k s = .next u ∧ u.checkPc.fetch = some w ∧
      decode w = .ok (mk x) := by
  induction n generalizing s with
  | zero => cases h; exact .inl (keepsAllBut_refl [] _ p List.not_mem_nil)
  | succ n ih =>
    obtain ⟨u, hu, hrun⟩ := runSteps_succ_next h
    rcases step_keeps_or_runs hp hmk hu with hkeep | ⟨w, x, hw, hd, _⟩
    · rcases ih hrun with hrest | ⟨k, v, w, x, hk, hv, hw, hd⟩
      · exact .inl (hkeep.trans hrest)
      · exact .inr ⟨k + 1, v, w, x, Nat.succ_lt_succ hk, (runSteps_succ_of_step hu k).trans hv, hw, hd⟩
    · exact .inr ⟨0, s, w, x, n.succ_pos, rfl, hw, hd⟩

/-- A draw takes from the budget or leaves it, whatever the quirk (R191). -/
theorem execDrw_vblank_le {x y : RegId} {n : Fin 16} (h : execDrw x y n s = .next t) :
    t.vblank ≤ s.vblank := by
  rcases execDrw_next h with ⟨rfl, _, _⟩ | ⟨_, rfl⟩
  · exact le_rfl
  · change (if s.cfg.quirks.vblank then s.vblank - 1 else s.vblank) ≤ s.vblank
    split <;> omega

theorem step_vblank_le (h : step s = .next t) : t.vblank ≤ s.vblank := by
  rcases step_keeps_or_changes (p := .vblank) (by decide) h with hkeep | ⟨w, i, _, _, hi, hexec⟩
  · exact le_of_eq hkeep
  · obtain ⟨x, y, n, rfl⟩ := vblank_mem_mayChange.1 hi
    have hcheck : s.checkPc.vblank = s.vblank := checkPc_keeps s .vblank (by decide)
    exact hcheck ▸ execDrw_vblank_le hexec

theorem runSteps_vblank_le {n : Nat} (h : runSteps n s = .next t) : t.vblank ≤ s.vblank := by
  induction n generalizing s with
  | zero => cases h; exact le_rfl
  | succ n ih =>
    obtain ⟨u, hu, hrun⟩ := runSteps_succ_next h
    exact (ih hrun).trans (step_vblank_le hu)

end timers

/-! ## The timer driver (R235, R236) -/

section driver
variable {s : State}

theorem setAcc_keeps (s : State) (q : Rat) : KeepsAllBut [.acc] s (s.setAcc q) := by
  intro p hp; cases p <;> simp_all [Keeps]

theorem byte_ofNat_sub_toNat (b : Byte) (n : Nat) : (BitVec.ofNat 8 (b.toNat - n)).toNat = b.toNat - n := by
  rw [BitVec.toNat_ofNat]
  omega

theorem tick_dt_toNat (s : State) (n : Nat) : (s.tick n).dt.toNat = s.dt.toNat - n :=
  byte_ofNat_sub_toNat s.dt n

theorem tick_st_toNat (s : State) (n : Nat) : (s.tick n).st.toNat = s.st.toNat - n :=
  byte_ofNat_sub_toNat s.st n

theorem tick_keeps (s : State) (n : Nat) : KeepsAllBut [.dt, .st, .vblank] s (s.tick n) :=
  (((setDt_keeps s _).cons (setSt_keeps _ _)).cons (setVblank_keeps _ n)).mono (by simp)

theorem updateTimers_of_nonneg {ms : Rat} (h : 0 ≤ ms) :
    s.updateTimers (.finite ms) = .next (s.elapse ms) := if_pos h

theorem updateTimers_of_neg {ms : Rat} (h : ms < 0) :
    s.updateTimers (.finite ms) = .refused .badDelta := if_neg (not_le.2 h)

theorem elapse_acc (s : State) (ms : Rat) :
    (s.elapse ms).acc = s.acc + ms - wholeTicks (s.acc + ms) * tickMs := rfl

theorem elapse_dt_toNat (s : State) (ms : Rat) :
    (s.elapse ms).dt.toNat = s.dt.toNat - wholeTicks (s.acc + ms) := tick_dt_toNat _ _

theorem elapse_st_toNat (s : State) (ms : Rat) :
    (s.elapse ms).st.toNat = s.st.toNat - wholeTicks (s.acc + ms) := tick_st_toNat _ _

theorem elapse_keeps (s : State) (ms : Rat) : KeepsAllBut [.dt, .st, .vblank, .acc] s (s.elapse ms) :=
  ((setAcc_keeps s _).mono (by simp)).trans ((tick_keeps _ _).mono (by simp))

/-- The whole ticks of a sum are those of its first part and those of the rest with the second part. -/
theorem wholeTicks_add {q b : Rat} (hq : 0 ≤ q) (hb : 0 ≤ b) :
    wholeTicks (q + b) = wholeTicks q + wholeTicks (q - wholeTicks q * tickMs + b) := by
  obtain ⟨hrest, _⟩ := wholeTicks_rest hq
  obtain ⟨h0, h1⟩ := wholeTicks_rest (add_nonneg hrest hb)
  refine wholeTicks_unique ?_ h0 h1
  push_cast
  ring

end driver

/-! ## The host's writes and its view of memory (R243 to R251) -/

section writes
variable {s t : State}

theorem setRegisters_of_legal {r : Registers} (h : spLegal r.sp) :
    s.setRegisters r = .next
      (((((((s.setV r.v).setI r.i).setPc r.pc).setSp r.sp).setStack r.stack).setDt r.dt).setSt r.st) :=
  if_pos h

theorem setRegisters_of_illegal {r : Registers} (h : ¬spLegal r.sp) :
    s.setRegisters r = .refused .spAboveSixteen := if_neg h

theorem setDisplay_of_legal {bytes : List Byte} (h : displayLegal s.cfg bytes) :
    s.setDisplay bytes = .next (s.setDisp bytes) := if_pos h

theorem setDisplay_of_illegal {bytes : List Byte} (h : ¬displayLegal s.cfg bytes) :
    s.setDisplay bytes = .refused .badDisplay := if_neg h

theorem setKey_of_lt {k : Nat} (down : Bool) (h : k < 16) :
    s.setKey k down = .next (s.setKeys (s.key.set k down)) := dif_pos h

theorem setKey_of_ge {k : Nat} (down : Bool) (h : 16 ≤ k) : s.setKey k down = .refused .noSuchKey :=
  dif_neg (Nat.not_lt.2 h)

theorem setRegisters_next {r : Registers} (h : s.setRegisters r = .next t) :
    t = ((((((s.setV r.v).setI r.i).setPc r.pc).setSp r.sp).setStack r.stack).setDt r.dt).setSt r.st := by
  by_cases hsp : spLegal r.sp
  · rw [setRegisters_of_legal hsp] at h; cases h; rfl
  · rw [setRegisters_of_illegal hsp] at h; cases h

theorem setDisplay_next {bytes : List Byte} (h : s.setDisplay bytes = .next t) : t = s.setDisp bytes := by
  by_cases hd : displayLegal s.cfg bytes
  · rw [setDisplay_of_legal hd] at h; cases h; rfl
  · rw [setDisplay_of_illegal hd] at h; cases h

theorem setKey_next {k : Nat} {down : Bool} (h : s.setKey k down = .next t) : ∃ w, t = s.setKeys w := by
  rcases Nat.lt_or_ge k 16 with hk | hk
  · rw [setKey_of_lt down hk] at h; cases h; exact ⟨_, rfl⟩
  · rw [setKey_of_ge down hk] at h; cases h

/-- A byte is a pixel exactly when it is at most 1 (10_state.md R39). -/
theorem byte_le_one_iff (p : Byte) : p.toNat ≤ 1 ↔ p = 0 ∨ p = 1 := by bv_omega

theorem displayLegal_iff {cfg : Config} {bytes : List Byte} :
    displayLegal cfg bytes ↔ bytes.length = cfg.width * cfg.height ∧ ∀ p ∈ bytes, p.toNat ≤ 1 := by
  simp only [displayLegal, byte_le_one_iff]

theorem setKeys_keeps (s : State) (w : Vector Bool 16) : KeepsAllBut [.key] s (s.setKeys w) := by
  intro p hp; cases p <;> simp_all [Keeps]

/-- A key transaction moves the key it names and no other (R250, R251). -/
theorem setKey_moves_one (s : State) (k : KeyId) (down : Bool) :
    ∃ t, s.setKey k.val down = .next t ∧ KeepsAllBut [.key] s t ∧
      ∀ j : KeyId, t.key[j] = if j = k then down else s.key[j] := by
  refine ⟨_, setKey_of_lt down k.isLt, setKeys_keeps s _, fun j => ?_⟩
  change (s.key.set k.val down)[j.val] = _
  simp only [Vector.getElem_set, Fin.ext_iff, eq_comm (a := k.val), Fin.getElem_fin]

/-- `get_memory` lists exactly the bytes that can be read, in order (R245). -/
theorem getMemory_getElem? (s : State) (a : Nat) : s.getMemory[a]? = s.readByte a := by
  rw [State.getMemory, List.getElem?_map]
  rcases Nat.lt_or_ge a s.cfg.memSize with ha | ha
  · rw [List.getElem?_range ha, State.readByte_lt ha]; rfl
  · rw [List.getElem?_eq_none (by simpa using ha), State.readByte_ge ha]; rfl

end writes

end Sys2Proof.Machine

namespace Sys2Proof

open Machine

/-! ## The statements about the timer driver and the host's transactions (spec/60_exceptions.md) -/

/-- Settles O22: a step moves a timer only in its own load, a draw lowers the budget, and a frame is a run
of steps. -/
theorem timersDoNotRunByThemselves : Obligations.TimersDoNotRunByThemselves := by
  refine ⟨fun s t h => ⟨?_, ?_, step_vblank_le h⟩, fun s t h => ⟨?_, ?_, runSteps_vblank_le h⟩,
    fun s t x h => ?_⟩
  · refine (step_keeps_or_runs (p := .dt) (by decide) eq_ldDtVx_of_dt_mem_mayChange h).imp id
      fun ⟨w, x, hw, hd, hexec⟩ => ⟨w, x, hw, hd, ?_⟩
    cases hexec; exact checkPc_keeps s .v (by decide) x
  · refine (step_keeps_or_runs (p := .st) (by decide) eq_ldStVx_of_st_mem_mayChange h).imp id
      fun ⟨w, x, hw, hd, hexec⟩ => ⟨w, x, hw, hd, ?_⟩
    cases hexec; exact checkPc_keeps s .v (by decide) x
  · exact runSteps_keeps_or_runs (p := .dt) (by decide) eq_ldDtVx_of_dt_mem_mayChange h
  · exact runSteps_keeps_or_runs (p := .st) (by decide) eq_ldStVx_of_st_mem_mayChange h
  · cases x with
    | reset => cases h; exact ⟨rfl, rfl, rfl⟩
    | loadRom image =>
      obtain rfl : s.loadRom image = t := Host.Outcome.next.inj h
      exact ⟨State.writeBytes_dt s _ _, State.writeBytes_st s _ _, State.writeBytes_vblank s _ _⟩
    | setRngSeed _ => cases h; exact ⟨rfl, rfl, rfl⟩
    | setRegisters r => obtain rfl := setRegisters_next h; exact ⟨rfl, rfl, rfl⟩
    | setDisplay _ => obtain rfl := setDisplay_next h; exact ⟨rfl, rfl, rfl⟩
    | pressKey _ | releaseKey _ => obtain ⟨w, rfl⟩ := setKey_next h; exact ⟨rfl, rfl, rfl⟩
    | updateTimers _ | step | stepFrame => trivial

/-- Settles O52: the ticks that elapse are `wholeTicks` of the accumulated time, and less than one is left. -/
theorem updateTimersCountsWholeTicks : Obligations.UpdateTimersCountsWholeTicks := by
  refine fun s ms hs => ⟨fun hms => ?_, updateTimers_of_neg, rfl⟩
  obtain ⟨h0, h1⟩ := wholeTicks_rest (add_nonneg hs.acc.1 hms)
  refine ⟨wholeTicks (s.acc + ms), s.elapse ms, updateTimers_of_nonneg hms, ?_, h0, h1,
    elapse_dt_toNat s ms, elapse_st_toNat s ms, rfl, elapse_keeps s ms⟩
  rw [elapse_acc, tickMs]
  ring

/-- Settles O53: the ticks of the two calls add up to those of the one. -/
theorem updateTimersInPiecesIsTheSame : Obligations.UpdateTimersInPiecesIsTheSame := by
  intro s t u w a b hs ha hb ht hu hw
  rw [updateTimers_of_nonneg ha] at ht; cases ht
  rw [updateTimers_of_nonneg hb] at hu; cases hu
  rw [updateTimers_of_nonneg (add_nonneg ha hb)] at hw; cases hw
  have ticks : wholeTicks (s.acc + (a + b)) =
      wholeTicks (s.acc + a) + wholeTicks ((s.elapse a).acc + b) := by
    rw [← add_assoc]
    exact wholeTicks_add (add_nonneg hs.acc.1 ha) hb
  refine ⟨?_, ?_, ?_⟩
  · apply BitVec.eq_of_toNat_eq
    rw [elapse_dt_toNat, elapse_dt_toNat, elapse_dt_toNat, ticks, Nat.sub_add_eq]
  · apply BitVec.eq_of_toNat_eq
    rw [elapse_st_toNat, elapse_st_toNat, elapse_st_toNat, ticks, Nat.sub_add_eq]
  · rw [elapse_acc _ (a + b), ticks, elapse_acc _ b, elapse_acc s a]
    push_cast
    ring

/-- Settles O58: each transaction is one update behind its check. -/
theorem displaySeedAndKeysAreSetAlone : Obligations.DisplaySeedAndKeysAreSetAlone := by
  refine fun s => ⟨fun bytes hlen hbytes => ?_, fun bytes hbad => ?_, fun seed => ?_,
    fun k => setKey_moves_one s k true, fun k => setKey_moves_one s k false,
    fun k hk => ⟨setKey_of_ge true hk, setKey_of_ge false hk⟩⟩
  · exact ⟨s.setDisp bytes, setDisplay_of_legal (displayLegal_iff.2 ⟨hlen, hbytes⟩), rfl,
      setDisp_keeps s bytes⟩
  · refine setDisplay_of_illegal fun hd => ?_
    obtain ⟨hlen, hbytes⟩ := displayLegal_iff.1 hd
    exact hbad.elim (absurd hlen) fun ⟨p, hp, hone⟩ => absurd (hbytes p hp) (Nat.not_le.2 hone)
  · exact ⟨s.setPrng seed, rfl, rfl, setPrng_keeps s seed⟩

/-- Settles O51: subtraction of naturals floors at 0, and a byte holds the result. -/
theorem tickCountsBothTimersDown : Obligations.TickCountsBothTimersDown := by
  refine fun n s => ⟨?_, ?_, rfl, tick_keeps s n⟩
  · rw [tick_dt_toNat]; split <;> omega
  · rw [tick_st_toNat]; split <;> omega

/-- Settles O57: the record is written part by part, behind the check of `sp`. -/
theorem registersRoundTrip : Obligations.RegistersRoundTrip := by
  refine fun s r => ⟨fun hsp => ⟨_, setRegisters_of_legal hsp, rfl, ?_⟩,
    fun hsp => setRegisters_of_illegal (Nat.not_le.2 hsp)⟩
  exact (((((((setV_keeps s _).cons (setI_keeps _ _)).cons (setPc_keeps _ _)).cons (setSp_keeps _ _)).cons
    (setStack_keeps _ _)).cons (setDt_keeps _ _)).cons (setSt_keeps _ _)).mono (by simp)

/-- Settles O59: each accessor is a field of the state, the memory read byte by byte. -/
theorem accessorsReturnTheState : Obligations.AccessorsReturnTheState := by
  refine ⟨fun s => ⟨⟨s.getMemory, rfl, by simp [State.getMemory], getMemory_getElem? s⟩, rfl,
    ⟨s.getRegisters, rfl, fun _ => rfl, rfl, rfl, rfl, rfl, rfl, rfl⟩, rfl, rfl⟩, fun cfg seed => ?_⟩
  exact ⟨rfl, rfl, rfl, rfl, rfl⟩

end Sys2Proof

end
